-- ==== Sys2Proof/Word.lean ====
section
/-! DEFINITION. The word types of the block (00_scope.md R9, R6). -/

namespace Sys2Proof

/-- `u8` of R9: one byte, bit 7 its most significant bit (R8). -/
abbrev Byte := BitVec 8

/-- `u64` of R9: VALUE, ACC and the data of a host access (R53). -/
abbrev Word := BitVec 64

/-- `IoErr` of R6: the opaque 32-bit code a source or sink reports. The block never interprets it. -/
abbrev IoErr := BitVec 32

end Sys2Proof
end

