-- ==== Sys2Proof/Config.lean ====
section
/-! DEFINITION. What an implementation of the block fixes (00_scope.md R6) and the free values. -/

namespace Sys2Proof

/-- `MAX_BYTE_SIZE` (R6, R7): the longest encoding of a 64-bit value. -/
def maxByteSize : Nat := 10

/-- `BUF_DECODE_POLICY` (R6): which buffer decoder DEC runs. -/
inductive Policy where
  | checked
  | legacy
  deriving DecidableEq, Repr

/-- The parameters a model takes (R6). `BUF_MAX` is at most 255, so it is held as the 8 bits that
CONFIG shows (R41); its lower bound 10 is `Params.wf` (WellFormed.lean). -/
structure Params where
  bufMax : Byte
  policy : Policy
  deriving DecidableEq, Repr

/-- The defaults of R6: BUF_MAX 16, CHECKED. -/
def Params.default : Params := { bufMax := 16, policy := .checked }

/-- FREE VALUE (log 3): what a read of a BUF byte that nothing has written since reset gives, "an unknown
byte (a free draw)" (10_state.md R52, 70_reset_and_hazards.md R301). The first argument is the number
of the draw, the second the index. -/
opaque Config.freeBufByte (draw index : Nat) : Byte

/-- FREE VALUE (log 11): what a host variable holds before the host program has assigned it; R126 does not say. -/
opaque Config.freeHostVar (name : Nat) : Word

end Sys2Proof
end

