-- ==== Sys2Proof/Syntax.lean ====
section
/-! DEFINITION. The commands: one constructor for each row of spec/opcode_table.json (30_encoding.md R120).
Operands are implicit (R121), so no constructor has a field. -/

namespace Sys2Proof

/-- The block's commands (R120). -/
inductive Instr where
  | enc
  | dec
  | wrb
  | wrs
  | rd
  deriving DecidableEq, Repr

end Sys2Proof
end

