-- ==== Sys2Proof/Machine/HostSyntax.lean ====
section
/-! DEFINITION. Host programs (30_encoding.md R126, R127): basic lines, and the pseudo-instructions above them.
Registers are written by number, host variables and a program's own labels by number too. -/

namespace Sys2Proof.Machine

/-- A label of a host program: one the program writes, or the fresh one of a `WAIT` (R127). -/
inductive Label where
  | user (n : Nat)
  | fresh (n : Nat)
  deriving DecidableEq, Repr

/-- The basic operations of R126. A host access carries 64-bit data (R53). -/
inductive HostOp where
  /-- `W <reg>, <imm>` -/
  | write (r : BitVec 4) (v : Word)
  /-- `R <reg> -> <name>` -/
  | read (r : BitVec 4) (x : Nat)
  /-- `BW <idx>, <imm8>` -/
  | bufWrite (i : Byte) (v : Word)
  /-- `BR <idx> -> <name>` -/
  | bufRead (i : Byte) (x : Nat)
  /-- `BZ <name>, <mask>, <label>`: run by the host, no transaction with the block -/
  | bz (x : Nat) (mask : Word) (target : Label)
  /-- a line that is only a label, as the last line of program P3 (95_test_vectors.md): nothing to run (log 18) -/
  | blank
  deriving DecidableEq, Repr

/-- One line of an expanded host program. -/
structure HostLine where
  labels : List Label
  op : HostOp
  deriving DecidableEq, Repr

/-- An operation of a host program as written: basic, or one of the pseudo-instructions of R127. -/
inductive SrcOp where
  | basic (op : HostOp)
  /-- `CMD ENC` and its like -/
  | cmd (i : Instr)
  /-- `WAIT -> <s>` -/
  | wait (x : Nat)
  /-- `BWS <idx>, [b0, ..., bk]` -/
  | bws (i : Byte) (bs : List Byte)
  deriving DecidableEq, Repr

/-- A line of a host program as written: `[label ':'] op` (R126). -/
structure SrcLine where
  label : Option Nat
  op : SrcOp
  deriving DecidableEq, Repr

end Sys2Proof.Machine
end

