-- ==== Sys2Proof/WellFormed.lean ====
section
/-! DEFINITION. Well-formedness: of a command, of the block's parameters (00_scope.md R6), of a host program
(30_encoding.md R126, R127). -/

namespace Sys2Proof

/-- A command has no operand field (30_encoding.md R121), so every term of `Instr` is a command of the block. -/
def Instr.wf : Instr → Bool
  | .enc => true
  | .dec => true
  | .wrb => true
  | .wrs => true
  | .rd => true

/-- R6: `10 ≤ BUF_MAX ≤ 255` (the upper bound is the width). -/
def Params.wf (p : Params) : Bool := decide (maxByteSize ≤ p.bufMax.toNat)

namespace Machine

/-- Some line of the program carries the label. -/
def labelDefined (prog : List HostLine) (l : Label) : Bool := prog.any fun line => line.labels.contains l

/-- The branch of a line, if it is one, goes to a label of the program (R126). -/
def HostOp.wf (prog : List HostLine) : HostOp → Bool
  | .write _ _ => true
  | .read _ _ => true
  | .bufWrite _ _ => true
  | .bufRead _ _ => true
  | .bz _ _ l => labelDefined prog l
  | .blank => true

/-- Every branch goes to a label of the program, and no label stands on two lines. -/
def progWf (prog : List HostLine) : Bool :=
  prog.all (fun line => line.op.wf prog) && decide (prog.flatMap (·.labels)).Nodup

/-- `BWS <idx>, [b0, ..., bk]` has at least one byte, and `<idx+k>` is a buffer index (8 bits, 20_memory.md R71). -/
def SrcOp.wf : SrcOp → Bool
  | .basic _ => true
  | .cmd i => i.wf
  | .wait _ => true
  | .bws i bs => !bs.isEmpty && decide (i.toNat + bs.length ≤ 256)

end Machine

end Sys2Proof
end

