-- ==== Sys2Proof/Decode.lean ====
section
/-! DEFINITION. The command word (30_encoding.md R120 to R124): fields, decoder, encoder. -/

namespace Sys2Proof

/-- Why a command word is illegal (R124). -/
inductive DecodeError where
  /-- RSVD is not 0000 (R123) -/
  | reservedNonzero
  /-- WMODE is 1 and OP is not 011 (R122) -/
  | wmodeWithoutWrite
  /-- OP is 000, 101, 110 or 111 (R124) -/
  | opUnassigned
  deriving DecidableEq, Repr

/-- OP = v[2:0] (R33). -/
def cmdOp (w : Byte) : BitVec 3 := w.extractLsb' 0 3

/-- WMODE = v[3] (R33). -/
def cmdWmode (w : Byte) : BitVec 1 := w.extractLsb' 3 1

/-- RSVD = v[7:4] (R33). -/
def cmdRsvd (w : Byte) : BitVec 4 := w.extractLsb' 4 4

/-- The command a word stands for, or why it is illegal: total on the 256 words (R120, R124). -/
def decode (w : Byte) : Except DecodeError Instr :=
  if cmdRsvd w ≠ 0 then .error .reservedNonzero
  else if cmdWmode w = 1 ∧ cmdOp w ≠ 0b011 then .error .wmodeWithoutWrite
  else if cmdOp w = 0b001 then .ok .enc
  else if cmdOp w = 0b010 then .ok .dec
  else if cmdOp w = 0b011 then (if cmdWmode w = 0 then .ok .wrb else .ok .wrs)
  else if cmdOp w = 0b100 then .ok .rd
  else .error .opUnassigned

/-- The decoder on a row of the opcode table: every command is exactly one 8-bit word (R124). -/
def decodeTableWord (nbits w : Nat) : Option Instr :=
  if nbits ≤ 8 ∧ w < 256 then (decode (BitVec.ofNat 8 w)).toOption else none

/-- The fields (WMODE, OP) of a command, from the table of R120. -/
def encodeFields : Instr → BitVec 1 × BitVec 3
  | .enc => (0, 0b001)
  | .dec => (0, 0b010)
  | .wrb => (0, 0b011)
  | .wrs => (1, 0b011)
  | .rd => (0, 0b100)

/-- The command word of a command: RSVD 0000, WMODE, OP (R120, R123). -/
def encode (i : Instr) : Byte := (0#4 ++ (encodeFields i).1 ++ (encodeFields i).2).cast rfl

/-- What OPL holds for a command: "3 bits of OP and 1 bit of WMODE" (10_state.md R45), WMODE above OP as in the word. -/
def oplOf (w : Byte) : BitVec 4 := w.extractLsb' 0 4

/-- The command word whose OP and WMODE a latched OPL holds. -/
def oplWord (opl : BitVec 4) : Byte := opl.setWidth 8

end Sys2Proof
end

