-- ==== Sys2Proof/Machine/State.lean ====
section
/-! DEFINITION. The state: the block (10_state.md R30) and the agents around it (00_scope.md R17), all plain data. -/

namespace Sys2Proof.Machine

/-- The FSM state `phase` (10_state.md R31). -/
inductive Phase where
  | idle
  | runEnc
  | runDec
  | runWrb
  | runWrs
  | runRd
  | faulted
  deriving DecidableEq, Repr

/-- The error codes of STATUS.ERR by name (60_exceptions.md R260); codes 8 to 15 are never written (R38). -/
inductive ErrCode where
  | ok
  | bufferTooSmall
  | overflow64
  | endOfInput
  | unexpectedEndOfInput
  | ioError
  | illegalCommand
  | boundsFault
  deriving DecidableEq, Repr

/-- STATUS as its fields (10_state.md R34); bit 3 is reserved and reads 0. The register's word is `Status.word` (Flags.lean). -/
structure Status where
  busy : Bool
  done : Bool
  fault : Bool
  err : ErrCode
  deriving DecidableEq, Repr

/-- IOERR as its fields (10_state.md R43). The register's word is `IoErrReg.word` (Flags.lean). -/
structure IoErrReg where
  valid : Bool
  code : IoErr
  deriving DecidableEq, Repr

/-- The contents of BUF: the bytes written since reset by index, indices strictly rising. An unlisted index is a byte
nothing has written, whose value is a free draw (10_state.md R52; log 3, log 4). -/
abbrev Memory := List Host.Cell

/-- The block's state (10_state.md R30), with its parameters. -/
structure Block where
  /-- the parameters of R6, which CONFIG shows (R41); no step changes them -/
  cfg : Params
  /-- R31 -/
  phase : Phase
  /-- STATUS, R34 -/
  status : Status
  /-- VALUE, R39 -/
  value : Word
  /-- COUNT, R40 -/
  count : Byte
  /-- BUF_LEN, R42 -/
  bufLen : Byte
  /-- IOERR, R43 -/
  ioerr : IoErrReg
  /-- BUF, R44 -/
  buf : Memory
  /-- OPL, R45: OP in bits 2:0, WMODE in bit 3 -/
  opl : BitVec 4
  /-- ACC, R46 -/
  acc : Word
  /-- N, R47 (and J, R50) -/
  n : Byte
  /-- FIRST, R48 -/
  first : Byte
  /-- STAGE, R49 -/
  stage : Vector Byte 10
  /-- STAGE_LEN, R49 -/
  stageLen : BitVec 4
  deriving DecidableEq, Repr

/-- The source's answer to one `SrcRead` (00_scope.md R12). -/
inductive SrcResp where
  | byte (b : Byte)
  | endOfInput
  | error (e : IoErr)
  deriving DecidableEq, Repr

/-- The sink's answer to one `SinkByte` (00_scope.md R12). -/
inductive SinkResp where
  | ok
  | error (e : IoErr)
  deriving DecidableEq, Repr

/-- The sink's answer `(k, r)` to one `SinkBulk` (00_scope.md R12, 20_memory.md R76). -/
structure BulkResp where
  accepted : Nat
  resp : SinkResp
  deriving DecidableEq, Repr

/-- One transaction: a host operation with what it read (30_encoding.md R126), a port transaction with its answer
(20_memory.md R74 to R76), or an assertion of reset (70_reset_and_hazards.md R300). -/
inductive Txn where
  | regWrite (r : BitVec 4) (v : Word)
  | regRead (r : BitVec 4) (v : Word)
  | bufWrite (i : Byte) (v : Word)
  | bufRead (i : Byte) (b : Byte)
  | srcRead (a : SrcResp)
  | sinkByte (b : Byte) (a : SinkResp)
  | sinkBulk (bs : List Byte) (a : BulkResp)
  | reset
  deriving DecidableEq, Repr

/-- Who moves (20_memory.md R80): the core with its port, the host by its program, or the host asserting reset. -/
inductive Move where
  | core
  | host
  | reset
  deriving DecidableEq, Repr

/-- The host: a program, the line it is at, its variables (30_encoding.md R126). -/
structure HostAgent where
  prog : List HostLine
  pc : Nat
  vars : List (Nat × Word)
  deriving DecidableEq, Repr

/-- The machine: the block, the host, the answers the source and sink will still give, and the MODEL's own fields
(the trace of transactions, the schedule, the counter of free draws). -/
structure State where
  /-- the block -/
  blk : Block
  /-- the host agent -/
  host : HostAgent
  /-- the source's answers to come, first first (log 7) -/
  source : List SrcResp
  /-- the sink's answers to come to single bytes (log 7) -/
  sink : List SinkResp
  /-- the sink's answers to come to bulk writes (log 7) -/
  bulk : List BulkResp
  /-- MODEL's own: the transactions made, oldest first (log 15) -/
  trace : List Txn
  /-- MODEL's own: the moves to come (log 6) -/
  sched : List Move
  /-- MODEL's own: how many free draws of BUF bytes have been made (log 3) -/
  draws : Nat
  deriving DecidableEq, Repr

/-- What stops the machine with a fault. A BOUNDS_FAULT is none of these: the block goes on in phase FAULTED (60_exceptions.md R269). -/
inductive Fault where
  /-- Raised by the host's `BZ` taken to a label that stands on no line of its program: 30_encoding.md R126 gives
  no such line a meaning. Safe: a program the spec gives no meaning stops (log 11). -/
  | labelUndefined (l : Label)
  deriving DecidableEq, Repr

/-- What a step refuses. -/
inductive Refusal where
  /-- Raised by an arm of `exec` whose command has no meaning yet: none has this. Safe. -/
  | notModelled (mnemonic : String)
  /-- Raised by WRB when the sink answers with more bytes than it was given: "a model has no step for it"
  (20_memory.md R76). Safe (log 8). -/
  | bulkAnswerTooLong (accepted : Nat)
  /-- Raised by a core step in a `RUN_x` phase whose OPL holds no command: no run reaches it (R45, R266). Safe (log 9). -/
  | latchedCommandIllegal (opl : BitVec 4)
  deriving DecidableEq, Repr

/-- STATUS after reset: 0x00 (10_state.md R52). -/
def Status.reset : Status := { busy := false, done := false, fault := false, err := .ok }

/-- IOERR with VALID 0 and CODE 0: after reset (R52), and what acceptance writes (R266). -/
def IoErrReg.none : IoErrReg := { valid := false, code := 0 }

/-- The block after reset (10_state.md R52, 70_reset_and_hazards.md R300), with parameters `p`. BUF is unspecified:
nothing is listed (log 3). The hidden registers are unspecified and never read before they are written (R51): 0 (log 2). -/
def Block.reset (p : Params) : Block where
  cfg := p
  phase := .idle
  status := .reset
  value := 0
  count := 0
  bufLen := 0
  ioerr := .none
  buf := []
  opl := 0
  acc := 0
  n := 0
  first := 0
  stage := Vector.replicate 10 0
  stageLen := 0

/-- The machine after reset with parameters `p`: no host program, no port answer to come, nothing done (logs 5, 6, 7, 15). -/
def State.resetWith (p : Params) : State where
  blk := .reset p
  host := { prog := [], pc := 0, vars := [] }
  source := []
  sink := []
  bulk := []
  trace := []
  sched := []
  draws := 0

/-- The machine right after reset, with the default parameters of R6. -/
def State.reset : State := .resetWith .default

end Sys2Proof.Machine
end

