-- ==== Sys2Proof/Machine/Flags.lean ====
section
/-! DEFINITION. STATUS and IOERR: their words, and what each event does to STATUS (10_state.md R34 to R38, R43, R54). -/

namespace Sys2Proof.Machine

/-- The numeric code of an error (60_exceptions.md R260). -/
def ErrCode.code : ErrCode → BitVec 4
  | .ok => 0
  | .bufferTooSmall => 1
  | .overflow64 => 2
  | .endOfInput => 3
  | .unexpectedEndOfInput => 4
  | .ioError => 5
  | .illegalCommand => 6
  | .boundsFault => 7

/-- STATUS as the host reads it: ERR[7:4], reserved[3] 0, FAULT[2], DONE[1], BUSY[0] (R34). -/
def Status.word (s : Status) : Byte :=
  (s.err.code ++ 0#1 ++ BitVec.ofBool s.fault ++ BitVec.ofBool s.done ++ BitVec.ofBool s.busy).cast rfl

/-- IOERR as the host reads it: VALID[32], CODE[31:0] (R43). -/
def IoErrReg.word (e : IoErrReg) : BitVec 33 := (BitVec.ofBool e.valid ++ e.code).cast (by decide)

/-- IOERR when a source or sink answered `Error(e)` (R43). -/
def IoErrReg.of (e : IoErr) : IoErrReg := { valid := true, code := e }

/-- STATUS when a command is accepted (60_exceptions.md R266): BUSY 1, DONE 0, ERR OK. -/
def Status.accepted (s : Status) : Status := { s with busy := true, done := false, err := .ok }

/-- STATUS when a command completes (`finish`, 00_scope.md R13; an illegal word, 60_exceptions.md R267). -/
def Status.completed (s : Status) (c : ErrCode) : Status := { s with busy := false, done := true, err := c }

/-- STATUS when a command faults (`fault`, 00_scope.md R13). -/
def Status.faulted (c : ErrCode) : Status := { busy := false, done := true, fault := true, err := c }

/-- The phases in which a command executes (10_state.md R35). -/
def Phase.isRun : Phase → Bool
  | .idle => false
  | .runEnc => true
  | .runDec => true
  | .runWrb => true
  | .runWrs => true
  | .runRd => true
  | .faulted => false

/-- The phase that executes a command (10_state.md R31). -/
def runPhase : Instr → Phase
  | .enc => .runEnc
  | .dec => .runDec
  | .wrb => .runWrb
  | .wrs => .runWrs
  | .rd => .runRd

end Sys2Proof.Machine
end

