-- ==== Sys2Proof/Machine/Operands.lean ====
section
/-! DEFINITION. The wire format (30_encoding.md R100 to R108), the decoders' datapath (40_codec_core.md R144), and the
staged operand of the writers (10_state.md R49). -/

namespace Sys2Proof.Machine

/-- The continuation flag of an encoded byte: bit 7 (R100). -/
def continues (b : Byte) : Bool := b.getLsbD 7

/-- The data group of an encoded byte: bits 6 to 0 (R100). -/
def groupBits (b : Byte) : BitVec 7 := b.extractLsb' 0 7

/-- `bitlength` of R9. -/
def bitlength (x : Nat) : Nat := if x = 0 then 0 else x.log2 + 1

/-- `group(x, i)`: bits [7i, 7i+6] of x (R103). -/
def group (x i : Nat) : Nat := (x >>> (7 * i)) &&& 0x7f

/-- The canonical length (R104). -/
def sdnvLen (x : Nat) : Nat := if x = 0 then 1 else (bitlength x - 1) / 7 + 1

/-- The byte at wire position `j` of an encoding of `len` groups (R106): the most significant group first, the flag
on every byte but the last (90_conflicts.md C1). -/
def wireByte (x len j : Nat) : Byte :=
  (if j < len - 1 then 0x80#8 else 0x00#8) ||| BitVec.ofNat 8 (group x (len - 1 - j))

/-- The canonical encoding, for every natural (R106). -/
def sdnvEncode (x : Nat) : List Byte := (List.range (sdnvLen x)).map (wireByte x (sdnvLen x))

/-- The value of a sequence, over naturals (R108). -/
def sdnvValue (s : List Byte) : Nat := s.foldl (fun acc b => (acc <<< 7) ||| (groupBits b).toNat) 0

/-- `s` is a complete SDNV (R101): at least one byte, the flag set on every byte but the last, clear on the last. -/
def isComplete : List Byte → Bool
  | [] => false
  | [b] => !continues b
  | b :: s => continues b && isComplete s

/-- One accumulation step on a 64-bit word: `(acc << 7) | b[6:0]`, the low 64 bits (R144, R147, R161). -/
def accumulate (acc : Word) (b : Byte) : Word := (acc <<< 7) ||| (groupBits b).setWidth 64

/-- FIRST after one more byte `b` is consumed: latched when N goes from 0 to 1 (10_state.md R48). -/
def latchFirst (n first b : Byte) : Byte := if n = 0 then b else first

/-- The result of `absorb` (R144). -/
inductive Absorbed where
  | overflow
  | done (acc : Word) (n : Byte)
  | more (acc : Word) (n : Byte) (first : Byte)
  deriving DecidableEq, Repr

/-- The byte-absorb function of the CHECKED buffer decoder and the reader (R144), with the first-byte rule (R145) and
the eleventh-byte rule (R146) at the 10th byte. -/
def absorb (acc : Word) (n first b : Byte) : Absorbed :=
  let n' := n + 1
  let first' := latchFirst n first b
  if n' = BitVec.ofNat 8 maxByteSize ∧ (continues b ∨ first' ≠ 0x81) then .overflow
  else if continues b then .more (accumulate acc b) n' first'
  else .done (accumulate acc b) n'

/-- STAGE with the bytes `e` written from index 0; bytes at an index ≥ |e| keep what they held (R49; log 16). -/
def stageWith (e : List Byte) (old : Vector Byte 10) : Vector Byte 10 :=
  ⟨((e ++ old.toList.drop e.length).take 10).toArray, by simp; omega⟩

/-- The staged sequence `STAGE[0 .. STAGE_LEN-1]` (R49). -/
def Block.staged (b : Block) : List Byte := b.stage.toList.take b.stageLen.toNat

/-- `STAGE[N]`, the next byte WRS sends (41_streaming.md R210). The register has ten bytes; N is below STAGE_LEN in every
state a run reaches. -/
def Block.stageByte (b : Block) : Byte := b.stage.toList.getD b.n.toNat 0

end Sys2Proof.Machine
end

