-- ==== Sys2Proof/Machine/Ops.lean ====
section
/-! DEFINITION. The named operations: data by key (BUF, host variables), reading a BUF byte, completing a command
(`finish`, `fault`: 00_scope.md R13), reset (70_reset_and_hazards.md R300), reading a register (20_memory.md R72). -/

namespace Sys2Proof.Machine

/-! ## Lists of (key, value) pairs with strictly rising keys -/

/-- The value listed under a key. -/
def assocGet {α : Type} : List (Nat × α) → Nat → Option α
  | [], _ => none
  | (k, v) :: m, i => if i = k then some v else assocGet m i

/-- The list with `v` under `i`. -/
def assocSet {α : Type} : List (Nat × α) → Nat → α → List (Nat × α)
  | [], i, v => [(i, v)]
  | (k, w) :: m, i, v =>
    if i < k then (i, v) :: (k, w) :: m
    else if i = k then (i, v) :: m
    else (k, w) :: assocSet m i v

/-- The canonical form of BUF (log 4): indices strictly rising. An unlisted byte has no value of its own (it reads as a
free draw), so no listed byte can equal it. -/
abbrev Memory.wf (m : Memory) : Prop := m.Pairwise fun a b => a.1 < b.1

/-- BUF after `BUF[i] <- e[0], BUF[i+1] <- e[1], ...`. -/
def Memory.writeFrom (m : Memory) (i : Nat) : List Byte → Memory
  | [] => m
  | b :: e => Memory.writeFrom (assocSet m i b) (i + 1) e

/-- What a read of `BUF[i]` gives: the byte last written, or the free draw number `draw` (10_state.md R52). -/
def Memory.byteAt (m : Memory) (draw i : Nat) : Byte := (assocGet m i).getD (Config.freeBufByte draw i)

/-- What the host's `BufRead(i)` gives: `BUF[i]`, and 0 at an index ≥ BUF_MAX (20_memory.md R71, R72). -/
def Block.bufRead (b : Block) (draw : Nat) (i : Byte) : Byte :=
  if i < b.cfg.bufMax then b.buf.byteAt draw i.toNat else 0

/-- The host's `BufWrite(i, v)`: `BUF[i] <- v[7:0]`, unless i ≥ BUF_MAX or STATUS.BUSY = 1 (20_memory.md R72). -/
def Block.bufWrite (b : Block) (i : Byte) (v : Word) : Block :=
  if i < b.cfg.bufMax ∧ b.status.busy = false then { b with buf := assocSet b.buf i.toNat (v.setWidth 8) } else b

/-! ## Completion, and reset -/

/-- `finish(c, k)` (00_scope.md R13). -/
def Block.finish (c : ErrCode) (k : Byte) (b : Block) : Block :=
  { b with count := k, status := b.status.completed c, phase := .idle }

/-- `fault(c, k)` (00_scope.md R13): the block's one exception entry. It records the count, sets the sticky FAULT, and
leaves the block in FAULTED until reset (10_state.md R37). -/
def Block.fault (c : ErrCode) (k : Byte) (b : Block) : Block :=
  { b with count := k, status := .faulted c, phase := .faulted }

/-- `IOERR <- {VALID = 1, CODE = e}; finish(IO_ERROR, k)` (41_streaming.md R200, R210, R223). -/
def Block.finishIo (e : IoErr) (k : Byte) (b : Block) : Block := { b with ioerr := .of e }.finish .ioError k

/-- `STAGE[0..m-1] <- e; STAGE_LEN <- m` (41_streaming.md R200, R210). -/
def Block.loadStage (e : List Byte) (b : Block) : Block :=
  { b with stage := stageWith e b.stage, stageLen := BitVec.ofNat 4 e.length }

/-- Reset asserted (70_reset_and_hazards.md R300): the only way out of FAULTED. The streams keep what was moved (R302,
R303), and the host goes on. -/
def State.assertReset (s : State) : State :=
  { s with blk := .reset s.blk.cfg, trace := s.trace ++ [.reset] }

/-! ## Registers -/

/-- CONFIG (10_state.md R41): BUFMAX[15:8], [7:5] 0, POLICY[4], MAXB[3:0] 10. -/
def Params.word (p : Params) : BitVec 16 :=
  (p.bufMax ++ 0#3 ++ (match p.policy with | .checked => 0#1 | .legacy => 1#1) ++ BitVec.ofNat 4 maxByteSize).cast rfl

/-- `RegRead(r)`: the register's value, zero-extended to 64 bits (20_memory.md R72, R73; 10_state.md R53). -/
def Block.regRead (b : Block) (r : BitVec 4) : Word :=
  match r.toNat with
  | 0 => 0
  | 1 => b.status.word.setWidth 64
  | 2 => b.value
  | 3 => b.count.setWidth 64
  | 4 => b.bufLen.setWidth 64
  | 5 => b.ioerr.word.setWidth 64
  | 6 => (Params.word b.cfg).setWidth 64
  | _ => 0

end Sys2Proof.Machine
end

