-- ==== Sys2Proof/Machine/Codec.lean ====
section
/-! DEFINITION. The fixed-buffer commands: ENC and DEC (40_codec_core.md). Each is one atomic core step (00_scope.md R18). -/

namespace Sys2Proof.Machine

/-- ENC on the block (R140 to R142). -/
def Block.enc (b : Block) : Block :=
  let v := b.value.toNat
  let m := sdnvLen v
  if b.bufLen.toNat < m then b.finish .bufferTooSmall 0
  else { b with buf := b.buf.writeFrom 0 (sdnvEncode v) }.finish .ok (BitVec.ofNat 8 m)

/-- ENC (R140). -/
def execEnc (s : State) : Host.Outcome State Fault Refusal := .next { s with blk := s.blk.enc }

/-- The loop of DEC CHECKED (R150) with `left = BUF_LEN - N` bytes still to come; `rd i` is what a read of `BUF[i]` gives.
`left = 0` is the end of the buffer (R151). -/
def decCheckedLoop (rd : Nat → Byte) : Nat → Block → Block
  | 0, b => if b.n = 0 then b.finish .endOfInput 0 else b.finish .unexpectedEndOfInput b.n
  | left + 1, b =>
    match absorb b.acc b.n b.first (rd b.n.toNat) with
    | .overflow => b.finish .overflow64 (BitVec.ofNat 8 maxByteSize)
    | .done a k => { b with value := a }.finish .ok k
    | .more a k f => decCheckedLoop rd left { b with acc := a, n := k, first := f }

/-- DEC, policy CHECKED (R150). -/
def Block.decChecked (rd : Nat → Byte) (b : Block) : Block :=
  decCheckedLoop rd b.bufLen.toNat { b with acc := 0, n := 0, first := 0 }

/-- The loop of DEC LEGACY (R160) with `left = BUF_LEN - N`: `left = 0` is the out-of-bounds fault (R162). -/
def decLegacyLoop (rd : Nat → Byte) : Nat → Block → Block
  | 0, b => b.fault .boundsFault b.n
  | left + 1, b =>
    let x := rd b.n.toNat
    let b' := { b with n := b.n + 1, acc := accumulate b.acc x, first := latchFirst b.n b.first x }
    if continues x then decLegacyLoop rd left b'
    else { b' with value := b'.acc }.finish .ok b'.n

/-- DEC, policy LEGACY (R160). It initialises and latches FIRST as every DEC does (10_state.md R48, R51; log 10). -/
def Block.decLegacy (rd : Nat → Byte) (b : Block) : Block :=
  decLegacyLoop rd b.bufLen.toNat { b with acc := 0, n := 0, first := 0 }

/-- DEC on the block under its policy (CONFIG.POLICY). -/
def Block.dec (rd : Nat → Byte) (b : Block) : Block :=
  match b.cfg.policy with
  | .checked => b.decChecked rd
  | .legacy => b.decLegacy rd

/-- What this step's reads of BUF give (log 3). -/
def State.bufReads (s : State) : Nat → Byte := s.blk.buf.byteAt s.draws

/-- DEC (R150, R160). Its reads of unwritten bytes use up one number of the free draws. -/
def execDec (s : State) : Host.Outcome State Fault Refusal :=
  .next { s with blk := s.blk.dec s.bufReads, draws := s.draws + 1 }

end Sys2Proof.Machine
end

