-- ==== Sys2Proof/Machine/Streaming.lean ====
section
/-! DEFINITION. The streaming commands: WRB, WRS and RD (41_streaming.md). Each step is one port transaction with its
answer; while the port has no answer the core waits (20_memory.md R74; log 7). -/

namespace Sys2Proof.Machine

/-! ## Entry actions, done when the command is accepted (60_exceptions.md R266) -/

/-- WRB's entry: stage the encoding of VALUE (R200). N stays as it was: DEDUCED from R47 and R200, where the list of R51 can be
read as setting N on WRB too (log 20). -/
def Block.entryWrb (b : Block) : Block := b.loadStage (sdnvEncode b.value.toNat)

/-- WRS's entry: stage the encoding of VALUE, N <- 0 (R210). -/
def Block.entryWrs (b : Block) : Block := { b.loadStage (sdnvEncode b.value.toNat) with n := 0 }

/-- RD's entry: ACC, N, FIRST <- 0 (R220). -/
def Block.entryRd (b : Block) : Block := { b with acc := 0, n := 0, first := 0 }

/-! ## Steps -/

/-- WRB on the block, given the sink's answer (R200, R201). -/
def Block.wrb (a : BulkResp) (b : Block) : Block :=
  match a.resp with
  | .ok => b.finish .ok (BitVec.ofNat 8 a.accepted)
  | .error e => b.finishIo e (BitVec.ofNat 8 a.accepted)

/-- WRB (R200): one bulk transaction of the staged sequence. An answer with k > STAGE_LEN is not a legal answer of the
port: "a model has no step for it" (20_memory.md R76; log 8). -/
def execWrb (s : State) : Host.Outcome State Fault Refusal :=
  match s.bulk with
  | [] => .next s
  | a :: rest =>
    if a.accepted ≤ s.blk.stageLen.toNat then
      .next { s with blk := s.blk.wrb a, bulk := rest, trace := s.trace ++ [.sinkBulk s.blk.staged a] }
    else .refused (.bulkAnswerTooLong a.accepted)

/-- WRS on the block, given the sink's answer to `STAGE[N]` (R210, R212). -/
def Block.wrs (a : SinkResp) (b : Block) : Block :=
  match a with
  | .error e => b.finishIo e b.n
  | .ok =>
    let b' := { b with n := b.n + 1 }
    if b'.n = b'.stageLen.setWidth 8 then b'.finish .ok b'.n else b'

/-- WRS (R210): one single-byte transaction. -/
def execWrs (s : State) : Host.Outcome State Fault Refusal :=
  match s.sink with
  | [] => .next s
  | a :: rest =>
    .next { s with blk := s.blk.wrs a, sink := rest, trace := s.trace ++ [.sinkByte s.blk.stageByte a] }

/-- RD on the block, given the source's answer (R220 to R224). -/
def Block.rd (a : SrcResp) (b : Block) : Block :=
  match a with
  | .endOfInput => if b.n = 0 then b.finish .endOfInput 0 else b.finish .unexpectedEndOfInput b.n
  | .error e => b.finishIo e b.n
  | .byte x =>
    match absorb b.acc b.n b.first x with
    | .overflow => b.finish .overflow64 (BitVec.ofNat 8 maxByteSize)
    | .done v k => { b with value := v }.finish .ok k
    | .more v k f => { b with acc := v, n := k, first := f }

/-- RD (R220): one source transaction. -/
def execRd (s : State) : Host.Outcome State Fault Refusal :=
  match s.source with
  | [] => .next s
  | a :: rest => .next { s with blk := s.blk.rd a, source := rest, trace := s.trace ++ [.srcRead a] }

end Sys2Proof.Machine
end

