-- ==== Sys2Proof/Machine/Command.lean ====
section
/-! DEFINITION. Writing CMD: acceptance and ILLEGAL_COMMAND (60_exceptions.md R266, R267); the host's register writes
(20_memory.md R72); the command the core is to run (10_state.md R45). -/

namespace Sys2Proof.Machine

/-- The Entry action of a command (41_streaming.md R200, R210, R220); ENC and DEC have none (60_exceptions.md R266). -/
def entry (i : Instr) (b : Block) : Block :=
  match i with
  | .enc => b
  | .dec => b
  | .wrb => b.entryWrb
  | .wrs => b.entryWrs
  | .rd => b.entryRd

/-- Acceptance of the command `i` with command word `w` (R266, item 4). -/
def Block.accept (w : Byte) (i : Instr) (b : Block) : Block :=
  { entry i { b with opl := oplOf w, status := b.status.accepted, count := 0, ioerr := .none } with phase := runPhase i }

/-- ILLEGAL_COMMAND (R267): `phase` is left as it is. -/
def Block.illegal (b : Block) : Block :=
  { b with status := b.status.completed .illegalCommand, count := 0, ioerr := .none }

/-- A host write of the command word `w` to CMD, in the order of R266: FAULT, BUSY, illegal word, acceptance. -/
def Block.issue (w : Byte) (b : Block) : Block :=
  if b.status.fault then b
  else if b.status.busy then b
  else match decode w with
    | .error _ => b.illegal
    | .ok i => b.accept w i

/-- A host write of BUF_LEN stores `min(v[7:0], BUF_MAX)` (10_state.md R42). -/
def Params.clampLen (p : Params) (v : Byte) : Byte := if v ≤ p.bufMax then v else p.bufMax

/-- `RegWrite(r, v)` under the access rights of 10_state.md R52; a narrow register takes the low bits (R53). -/
def Block.regWrite (r : BitVec 4) (v : Word) (b : Block) : Block :=
  match r.toNat with
  | 0 => b.issue (v.setWidth 8)
  | 2 => if b.status.busy then b else { b with value := v }
  | 4 => if b.status.busy then b else { b with bufLen := Params.clampLen b.cfg (v.setWidth 8) }
  | _ => b

/-- The core's fetch: in a `RUN_x` phase the command latched in OPL (10_state.md R45); otherwise the core has none. -/
def Block.fetch (b : Block) : Option (Except DecodeError Instr) :=
  if b.phase.isRun then some (decode (oplWord b.opl)) else none

/-- The block as it must be for a CMD write to be accepted: idle, not BUSY, not FAULT (R266). -/
def Block.ready (b : Block) : Block :=
  { b with phase := .idle, status := { b.status with busy := false, fault := false } }

end Sys2Proof.Machine
end

