-- ==== Sys2Proof/Machine/HostRun.lean ====
section
/-! DEFINITION. The host runs its program (30_encoding.md R126, R127), and the schedule says who moves (20_memory.md R80). -/

namespace Sys2Proof.Machine

/-- The value of a host variable; one nothing has assigned holds a free value (log 11). -/
def HostAgent.var (h : HostAgent) (x : Nat) : Word := (assocGet h.vars x).getD (Config.freeHostVar x)

/-- On to the next line. -/
def HostAgent.advance (h : HostAgent) : HostAgent := { h with pc := h.pc + 1 }

/-- `<name> := v`, and on to the next line. -/
def HostAgent.assign (h : HostAgent) (x : Nat) (v : Word) : HostAgent :=
  { h with vars := assocSet h.vars x v, pc := h.pc + 1 }

/-- The number of the first line that carries the label. -/
def findLabel (prog : List HostLine) (l : Label) : Option Nat := prog.findIdx? fun line => line.labels.contains l

/-- One line of the host program: one host operation of 20_memory.md R72, or the host's own branch (R126). -/
def hostOp (op : HostOp) (s : State) : Host.Outcome State Fault Refusal :=
  match op with
  | .write r v =>
    .next { s with blk := s.blk.regWrite r v, host := s.host.advance, trace := s.trace ++ [.regWrite r v] }
  | .read r x =>
    .next { s with host := s.host.assign x (s.blk.regRead r), trace := s.trace ++ [.regRead r (s.blk.regRead r)] }
  | .bufWrite i v =>
    .next { s with blk := s.blk.bufWrite i v, host := s.host.advance, trace := s.trace ++ [.bufWrite i v] }
  | .bufRead i x =>
    .next { s with host := s.host.assign x ((s.blk.bufRead s.draws i).setWidth 64),
                   trace := s.trace ++ [.bufRead i (s.blk.bufRead s.draws i)], draws := s.draws + 1 }
  | .bz x mask l =>
    if s.host.var x &&& mask = 0 then
      match findLabel s.host.prog l with
      | some p => .next { s with host := { s.host with pc := p } }
      | none => .fault (.labelUndefined l)
    else .next { s with host := s.host.advance }
  | .blank => .next { s with host := s.host.advance }

/-- The host's move: the line it is at; past its last line it does nothing. -/
def hostMove (s : State) : Host.Outcome State Fault Refusal :=
  match s.host.prog[s.host.pc]? with
  | none => .next s
  | some line => hostOp line.op s

/-- The core has a step it can take (70_reset_and_hazards.md R320): ENC or DEC, or a streaming command whose port has an
answer. -/
def State.coreEnabled (s : State) : Bool :=
  match s.blk.phase with
  | .idle => false
  | .runEnc => true
  | .runDec => true
  | .runWrb => !s.bulk.isEmpty
  | .runWrs => !s.sink.isEmpty
  | .runRd => !s.source.isEmpty
  | .faulted => false

/-- Who moves next, and the state with that move taken off the schedule. An empty schedule lets the core go first when it
can move, and the host otherwise (log 6). -/
def State.takeMove (s : State) : Move × State :=
  match s.sched with
  | m :: ms => (m, { s with sched := ms })
  | [] => (if s.coreEnabled then .core else .host, s)

/-- The expansion of one operation as written (R127); `k` names its fresh label. -/
def SrcOp.expand (k : Nat) : SrcOp → List HostLine
  | .basic op => [⟨[], op⟩]
  | .cmd i => [⟨[], .write 0 ((encode i).setWidth 64)⟩]
  | .wait x => [⟨[.fresh k], .read 1 x⟩, ⟨[], .bz x 0x02 (.fresh k)⟩]
  | .bws i bs => bs.mapIdx fun j b => ⟨[], .bufWrite (i + BitVec.ofNat 8 j) (b.setWidth 64)⟩

/-- A line's own label goes on the first line it expands to. -/
def addLabel (l : Option Nat) : List HostLine → List HostLine
  | [] => []
  | line :: rest => { line with labels := (l.map Label.user).toList ++ line.labels } :: rest

/-- A host program as written, expanded into basic lines; line `k` of it has the fresh label `k` (R126, R127). -/
def assemble (p : List SrcLine) : List HostLine :=
  (p.mapIdx fun k line => addLabel line.label (line.op.expand k)).flatten

/-- The state in which the command word `w` is what runs next. A legal word: the host's CMD write of it has been accepted,
so it stands in OPL, where the core fetches, and the next move is the core's. An illegal word is never latched: it
runs in the host's CMD write itself (60_exceptions.md R267), so that write is the host's next line and the next move is the
host's (log 5). -/
def State.withCommand (s : State) (w : Byte) : State :=
  match decode w with
  | .ok i => { s with blk := s.blk.ready.accept w i, sched := .core :: s.sched }
  | .error _ =>
    { s with blk := s.blk.ready,
             host := { s.host with prog := s.host.prog.take s.host.pc ++ ⟨[], .write 0 (w.setWidth 64)⟩ :: s.host.prog.drop s.host.pc,
                                   pc := min s.host.pc s.host.prog.length },
             sched := .host :: s.sched }

end Sys2Proof.Machine
end

