-- ==== Sys2Proof/Machine/Dispatch.lean ====
section
/-! DEFINITION. One arm for each command: the core's step of it. -/

namespace Sys2Proof.Machine

def exec (i : Instr) (s : State) : Host.Outcome State Fault Refusal :=
  match i with
  | .enc => Sys2Proof.Machine.execEnc s
  | .dec => Sys2Proof.Machine.execDec s
  | .wrb => Sys2Proof.Machine.execWrb s
  | .wrs => Sys2Proof.Machine.execWrs s
  | .rd => Sys2Proof.Machine.execRd s

end Sys2Proof.Machine
end

