-- ==== Sys2Proof/Machine/Step.lean ====
section
/-! DEFINITION. One step of the machine: one atomic step of the agent whose move it is (20_memory.md R80). -/

namespace Sys2Proof.Machine

/-- The core's move: it runs one step of the command it fetches from OPL; with none to run it does nothing. -/
def coreMove (s : State) : Host.Outcome State Fault Refusal :=
  match s.blk.fetch with
  | none => .next s
  | some (.ok i) => exec i s
  | some (.error _) => .refused (.latchedCommandIllegal s.blk.opl)

/-- One step (00_scope.md R18, 20_memory.md R80). -/
def step (s : State) : Host.Outcome State Fault Refusal :=
  match s.takeMove with
  | (.core, s') => coreMove s'
  | (.host, s') => hostMove s'
  | (.reset, s') => .next s'.assertReset

/-- `s` with the command word `w` standing where the step fetches its next command (log 5); every command is one 8-bit word,
so a table word's `nbits` says nothing more. -/
def State.withFetchWord (s : State) (_nbits w : Nat) : State := s.withCommand (BitVec.ofNat 8 w)

end Sys2Proof.Machine
end

