-- ==== Sys2Proof/Safety.lean ====
section
/-! DEFINITION. What holds of every state a run reaches (the invariant), what a run is, and the duties of the agents around
the block that a claim may assume (41_streaming.md R240, 60_exceptions.md R287). -/

namespace Sys2Proof.Machine

/-- `bs` are the bytes the running RD has consumed: N of them, at most 9, each with its flag set; ACC is their value and
FIRST the first of them (10_state.md R46 to R48, 40_codec_core.md R147). -/
structure Block.Consumed (b : Block) (bs : List Byte) : Prop where
  length_eq : bs.length = b.n.toNat
  length_le : bs.length ≤ 9
  flagged : ∀ x ∈ bs, continues x = true
  acc_eq : b.acc.toNat = sdnvValue bs
  first_eq : ∀ x, bs.head? = some x → b.first = x

/-- What every step keeps true of the block. -/
structure Block.Inv (b : Block) : Prop where
  /-- R6 -/
  cfg_wf : b.cfg.wf = true
  /-- R42: BUF_LEN ≤ BUF_MAX -/
  bufLen_le : b.bufLen ≤ b.cfg.bufMax
  /-- BUF keeps its canonical form (log 4) -/
  buf_wf : Memory.wf b.buf
  /-- R44: BUF has BUF_MAX bytes -/
  buf_bound : ∀ c ∈ b.buf, c.1 < b.cfg.bufMax.toNat
  /-- R35 -/
  busy_eq : b.status.busy = b.phase.isRun
  /-- R36 -/
  not_busy_and_done : b.status.busy = true → b.status.done = false
  /-- R31, R37: FAULT is 1 exactly in FAULTED -/
  fault_iff : b.status.fault = true ↔ b.phase = .faulted
  /-- R38, R40, R43: acceptance cleared ERR, COUNT and IOERR, and they stay so while BUSY -/
  busy_cleared : b.status.busy = true → b.status.err = .ok ∧ b.count = 0 ∧ b.ioerr = .none
  /-- R45: OPL holds the command that runs -/
  opl_latched : ∀ i, b.phase = runPhase i → b.opl = oplOf (encode i)
  /-- R43: CODE is 0 while VALID is 0 -/
  ioerr_code : b.ioerr.valid = false → b.ioerr.code = 0
  /-- R43, R260: IOERR is valid exactly with IO_ERROR -/
  ioerr_iff : b.ioerr.valid = true ↔ b.status.err = .ioError
  /-- R37, R162: only the LEGACY decoder faults, and with BOUNDS_FAULT -/
  faulted_how : b.phase = .faulted → b.cfg.policy = .legacy ∧ b.status.err = .boundsFault ∧ b.status.done = true
  /-- R40: COUNT ≤ BUF_MAX -/
  count_le_bufMax : b.count ≤ b.cfg.bufMax
  /-- R40, R171: under CHECKED, COUNT ≤ 10 -/
  count_le_ten : b.cfg.policy = .checked → b.count.toNat ≤ 10
  /-- R49: the writers' STAGE holds the encoding of VALUE -/
  staged_eq : b.phase = .runWrb ∨ b.phase = .runWrs →
    b.staged = sdnvEncode b.value.toNat ∧ b.stageLen.toNat = sdnvLen b.value.toNat
  /-- R210: a running WRS has a byte left to send -/
  wrs_left : b.phase = .runWrs → b.n.toNat < b.stageLen.toNat
  /-- R46 to R48: ACC, N and FIRST of a running RD are those of the bytes it has consumed -/
  rd_consumed : b.phase = .runRd → ∃ bs, b.Consumed bs

/-- What every step keeps true of the machine. -/
structure State.Inv (s : State) : Prop where
  blk : s.blk.Inv
  /-- host variables keep their canonical form -/
  vars_wf : s.host.vars.Pairwise fun a b => a.1 < b.1

/-- The sink's duty for a bulk answer (R76, R240): k ≤ m. -/
def State.BulkDuty (s : State) : Prop :=
  s.blk.phase = .runWrb → ∀ a, s.bulk.head? = some a → a.accepted ≤ s.blk.stageLen.toNat

/-- The states a run can be in: a block just reset, with well-formed parameters and any agents around it, and whatever steps
lead to from there. -/
inductive Reachable : State → Prop where
  | start (s : State) (p : Params) (hp : p.wf = true) (hb : s.blk = .reset p) (hv : s.host.vars = []) : Reachable s
  | step (s t : State) (hs : Reachable s) (h : Sys2Proof.Machine.step s = .next t) : Reachable t

/-- A step that does not stop the machine. -/
def Proceeds (s : State) : Prop := ∃ t, Sys2Proof.Machine.step s = .next t

/-- The machine runs on for `k` steps. -/
def SafeFor (k : Nat) (s : State) : Prop := ∃ t, Sys2Proof.core.run k s = .next t

/-! ## Reference functions of the spec that no step calls -/

/-- `absorb` over a sequence, from the start of a decode (40_codec_core.md R149): the result after the last byte needed. -/
def absorbSeq (acc : Word) (n first : Byte) : List Byte → Absorbed
  | [] => .more acc n first
  | x :: xs =>
    match absorb acc n first x with
    | .more a k f => absorbSeq a k f xs
    | r => r

/-- A complete SDNV that the CHECKED decoder and the reader accept: at most 10 bytes, the first 0x81 if there are 10
(R145, R146, R148). -/
def accepted (bs : List Byte) : Bool :=
  isComplete bs && (decide (bs.length < 10) || (decide (bs.length = 10) && decide (bs.head? = some 0x81)))

/-- Ten bytes the checked decoders reject: the first nine flagged, and the 10th flagged or the first not 0x81 (R145, R146). -/
def overflows (bs : List Byte) : Bool :=
  decide (bs.length = 10) && (bs.take 9).all continues &&
    ((bs.getLast?.map continues == some true) || decide (bs.head? ≠ some 0x81))

end Sys2Proof.Machine
end

