-- ==== Sys2Proof/Certificates/Slice0/Obligations.lean ====
section
/-! DEFINITION. The statements for the provers. Names of rules R<n> are those of spec/. Each statement about a command
says what it leaves unchanged by giving the next state as the old one with the named fields changed. Where a statement speaks of
`trace`, `sched`, `draws`, the port answers to come or the host's line, it speaks of the model's own fields (logs 15, 6, 3, 7, 18), no
rule of the spec. -/

open Sys2Proof Sys2Proof.Machine

/-! ## Encodings -/

/-- R120, the table: word, OP, WMODE and RSVD of each command, decoded to that command. -/
def Obligations.TableWordsDecode : Prop :=
  (decode 0x01 = .ok .enc ∧ cmdOp 0x01 = 0b001 ∧ cmdWmode 0x01 = 0 ∧ cmdRsvd 0x01 = 0) ∧
  (decode 0x02 = .ok .dec ∧ cmdOp 0x02 = 0b010 ∧ cmdWmode 0x02 = 0 ∧ cmdRsvd 0x02 = 0) ∧
  (decode 0x03 = .ok .wrb ∧ cmdOp 0x03 = 0b011 ∧ cmdWmode 0x03 = 0 ∧ cmdRsvd 0x03 = 0) ∧
  (decode 0x0B = .ok .wrs ∧ cmdOp 0x0B = 0b011 ∧ cmdWmode 0x0B = 1 ∧ cmdRsvd 0x0B = 0) ∧
  (decode 0x04 = .ok .rd ∧ cmdOp 0x04 = 0b100 ∧ cmdWmode 0x04 = 0 ∧ cmdRsvd 0x04 = 0)

/-- Decoding gives back every encoded command, and every word that decodes is the word of its command. -/
def Obligations.DecodeEncodeAgree : Prop :=
  (∀ i : Instr, i.wf = true → decode (encode i) = .ok i) ∧ ∀ (w : Byte) (i : Instr), decode w = .ok i → w = encode i

/-- R124: which words are illegal, how many, and what writing one does while the block accepts commands. -/
def Obligations.IllegalWordsAre : Prop :=
  (∀ w : Byte, (∃ e, decode w = .error e) ↔
    (cmdOp w = 0b000 ∨ cmdOp w = 0b101 ∨ cmdOp w = 0b110 ∨ cmdOp w = 0b111 ∨ cmdRsvd w ≠ 0 ∨
      (cmdWmode w = 1 ∧ cmdOp w ≠ 0b011))) ∧
  ((List.range 256).filter fun n => (decode (BitVec.ofNat 8 n)).toOption.isNone).length = 251 ∧
  ∀ (b : Block) (w : Byte) (e : DecodeError), b.status.fault = false → b.status.busy = false → decode w = .error e →
    (b.issue w).status.err = .illegalCommand ∧ (b.issue w).status.done = true ∧ (b.issue w).phase = b.phase

/-- R105: the length of each 64-bit value, by range. -/
def Obligations.LengthByRange : Prop :=
  ∀ x : Nat, x < 2 ^ 64 →
    (sdnvLen x = 1 ↔ x < 2 ^ 7) ∧
    (∀ k, 2 ≤ k → k ≤ 9 → (sdnvLen x = k ↔ 2 ^ (7 * (k - 1)) ≤ x ∧ x < 2 ^ (7 * k))) ∧
    (sdnvLen x = 10 ↔ 2 ^ 63 ≤ x) ∧
    1 ≤ sdnvLen x ∧ sdnvLen x ≤ 10

/-- R106: the bytes of the canonical encoding, for every natural; it is a complete SDNV, and its first byte is not 0x80. -/
def Obligations.EncodingIsCanonical : Prop :=
  ∀ x : Nat,
    (∀ j, j < sdnvLen x → (sdnvEncode x)[j]? =
      some (BitVec.ofNat 8 ((if j < sdnvLen x - 1 then 0x80 else 0x00) ||| ((x >>> (7 * (sdnvLen x - 1 - j))) &&& 0x7f)))) ∧
    isComplete (sdnvEncode x) = true ∧
    (sdnvEncode x).head? ≠ some 0x80 ∧
    sdnvEncode 0 = [0x00]

/-- R109: for every natural, decoding the encoding gives the value, and the encoding has the canonical length. -/
def Obligations.WireRoundTrip : Prop :=
  ∀ x : Nat, sdnvValue (sdnvEncode x) = x ∧ (sdnvEncode x).length = sdnvLen x

/-- R107, R108: a complete SDNV with any number of 0x80 bytes before it is a complete SDNV of the same value. -/
def Obligations.LeadingZeroGroupsKeepValue : Prop :=
  ∀ (k : Nat) (s : List Byte), isComplete s = true →
    isComplete (List.replicate k 0x80 ++ s) = true ∧ sdnvValue (List.replicate k 0x80 ++ s) = sdnvValue s

/-- R110: ten-byte sequences. The value is the first group times 2^63 plus less than 2^63, fits in 64 bits exactly when the first
byte is 0x80 or 0x81, and the encoding of a 64-bit value of ten bytes begins with 0x81. -/
def Obligations.TenByteSequences : Prop :=
  (∀ (s : List Byte) (b : Byte), isComplete s = true → s.length = 10 → s.head? = some b →
    (∃ r, r < 2 ^ 63 ∧ sdnvValue s = (groupBits b).toNat * 2 ^ 63 + r) ∧
    (sdnvValue s < 2 ^ 64 ↔ b = 0x80 ∨ b = 0x81)) ∧
  ∀ x : Nat, x < 2 ^ 64 → sdnvLen x = 10 → (sdnvEncode x).head? = some 0x81

/-- R145, R146: at the 10th byte the result is Overflow exactly when its flag is set or the first byte was not 0x81; before
it, never. -/
def Obligations.AbsorbOverflowsExactly : Prop :=
  ∀ (acc : Word) (n first b : Byte), n.toNat ≤ 9 →
    (absorb acc n first b = .overflow ↔ n = 9 ∧ (continues b = true ∨ first ≠ 0x81))

/-- R149: when the bytes of a decode end in Done, its value is theirs, and they are the first k bytes given. -/
def Obligations.DoneValueIsSequenceValue : Prop :=
  ∀ (s : List Byte) (a : Word) (k : Byte), absorbSeq 0 0 0 s = .done a k →
    k.toNat ≤ s.length ∧ isComplete (s.take k.toNat) = true ∧ a.toNat = sdnvValue (s.take k.toNat)

/-! ## ENC -/

/-- R140, R142: with capacity for it, ENC completes: wire position j of the encoding of VALUE is at BUF[j], every other index of
BUF is as before, COUNT is the length, and nothing else changes but STATUS and `phase`. -/
def Obligations.EncWritesEncoding : Prop :=
  ∀ s : State, sdnvLen s.blk.value.toNat ≤ s.blk.bufLen.toNat →
    ∃ m, exec .enc s = .next { s with blk := { s.blk with
        buf := m
        count := BitVec.ofNat 8 (sdnvLen s.blk.value.toNat)
        status := { busy := false, done := true, fault := s.blk.status.fault, err := .ok }
        phase := .idle } } ∧
      (∀ j, j < sdnvLen s.blk.value.toNat → assocGet m j = (sdnvEncode s.blk.value.toNat)[j]?) ∧
      (∀ j, sdnvLen s.blk.value.toNat ≤ j → assocGet m j = assocGet s.blk.buf j) ∧
      (∀ j d, sdnvLen s.blk.value.toNat ≤ j → m.byteAt d j = s.blk.buf.byteAt d j)

/-- R141: ENC reports BUFFER_TOO_SMALL exactly when BUF_LEN is less than the length of VALUE's encoding, then with COUNT 0 and
no byte of BUF written; a capacity of 10 or more never fails. -/
def Obligations.EncTooSmallExactly : Prop :=
  ∀ s : State, ∃ t, exec .enc s = .next t ∧
    (t.blk.status.err = .bufferTooSmall ↔ s.blk.bufLen.toNat < sdnvLen s.blk.value.toNat) ∧
    (10 ≤ s.blk.bufLen.toNat → t.blk.status.err = .ok) ∧
    (s.blk.bufLen.toNat < sdnvLen s.blk.value.toNat →
      t = { s with blk := { s.blk with
        count := 0
        status := { busy := false, done := true, fault := s.blk.status.fault, err := .bufferTooSmall }
        phase := .idle } })

/-! ## DEC -/

/-- The sequence of bytes that this step's reads of BUF[0..k-1] give is `bs` (unwritten bytes read as free draws). -/
def BufHolds (s : State) (bs : List Byte) : Prop := ∀ j, j < bs.length → bs[j]? = some (s.blk.buf.byteAt s.draws j)

/-- DEC's next state: STATUS, COUNT and `phase` as `finish(c, k)` leaves them, VALUE `v`; only ACC, N and FIRST are left
unsaid (and the model's own count of free draws). -/
def DecFinishes (s : State) (c : ErrCode) (k : Nat) (v : Word) : Prop :=
  ∃ (acc : Word) (n first : Byte), exec .dec s = .next { s with
    draws := s.draws + 1
    blk := { s.blk with
      value := v
      count := BitVec.ofNat 8 k
      status := { busy := false, done := true, fault := s.blk.status.fault, err := c }
      phase := .idle
      acc := acc
      n := n
      first := first } }

/-- R150, R152: CHECKED, a complete SDNV that the width checks accept, within BUF_LEN: OK with its value and length. -/
def Obligations.DecCheckedAccepts : Prop :=
  ∀ (s : State) (bs : List Byte), s.blk.cfg.policy = .checked → accepted bs = true → bs.length ≤ s.blk.bufLen.toNat →
    BufHolds s bs → DecFinishes s .ok bs.length (BitVec.ofNat 64 (sdnvValue bs)) ∧ sdnvValue bs < 2 ^ 64

/-- R145, R146, R150: CHECKED, ten bytes within BUF_LEN that break a width rule: OVERFLOW64, COUNT 10, VALUE unchanged. -/
def Obligations.DecCheckedOverflows : Prop :=
  ∀ (s : State) (bs : List Byte), s.blk.cfg.policy = .checked → overflows bs = true → 10 ≤ s.blk.bufLen.toNat →
    BufHolds s bs → DecFinishes s .overflow64 10 s.blk.value

/-- R151: CHECKED, fewer than ten bytes in the buffer and every one flagged: END_OF_INPUT with COUNT 0 if there is none,
UNEXPECTED_END_OF_INPUT with COUNT = BUF_LEN otherwise; VALUE unchanged. -/
def Obligations.DecCheckedEndOfBuffer : Prop :=
  ∀ (s : State) (bs : List Byte), s.blk.cfg.policy = .checked → bs.length = s.blk.bufLen.toNat → bs.length ≤ 9 →
    (∀ b ∈ bs, continues b = true) → BufHolds s bs →
    (bs = [] → DecFinishes s .endOfInput 0 s.blk.value) ∧
    (bs ≠ [] → DecFinishes s .unexpectedEndOfInput bs.length s.blk.value)

/-- R150, R151, R171: in every state DEC CHECKED completes, in one of its four ways, with the COUNT of R260. -/
def Obligations.DecCheckedCompletes : Prop :=
  ∀ s : State, s.blk.cfg.policy = .checked →
    (∃ k v, 1 ≤ k ∧ k ≤ 10 ∧ k ≤ s.blk.bufLen.toNat ∧ DecFinishes s .ok k v) ∨
    (10 ≤ s.blk.bufLen.toNat ∧ DecFinishes s .overflow64 10 s.blk.value) ∨
    (s.blk.bufLen = 0 ∧ DecFinishes s .endOfInput 0 s.blk.value) ∨
    (1 ≤ s.blk.bufLen.toNat ∧ s.blk.bufLen.toNat ≤ 9 ∧
      DecFinishes s .unexpectedEndOfInput s.blk.bufLen.toNat s.blk.value)

/-- R160, R161: LEGACY, a complete SDNV of any length within BUF_LEN: OK with its value mod 2^64 and its length.
The formula is R161's own reading (log 12). -/
def Obligations.DecLegacyWraps : Prop :=
  ∀ (s : State) (bs : List Byte), s.blk.cfg.policy = .legacy → isComplete bs = true → bs.length ≤ s.blk.bufLen.toNat →
    BufHolds s bs → DecFinishes s .ok bs.length (BitVec.ofNat 64 (sdnvValue bs % 2 ^ 64))

/-- R162, R13: LEGACY, every byte of BUF[0..BUF_LEN-1] flagged: BOUNDS_FAULT with COUNT = BUF_LEN, FAULT set, phase FAULTED,
VALUE not written. -/
def Obligations.DecLegacyFaults : Prop :=
  ∀ (s : State) (bs : List Byte), s.blk.cfg.policy = .legacy → bs.length = s.blk.bufLen.toNat →
    (∀ b ∈ bs, continues b = true) → BufHolds s bs →
    ∃ (acc : Word) (n first : Byte), exec .dec s = .next { s with
      draws := s.draws + 1
      blk := { s.blk with
        count := s.blk.bufLen
        status := { busy := false, done := true, fault := true, err := .boundsFault }
        phase := .faulted
        acc := acc
        n := n
        first := first } }

/-- R163: on a complete SDNV that CHECKED accepts, the two policies end with the same VALUE, COUNT and STATUS. -/
def Obligations.PoliciesAgree : Prop :=
  ∀ (s : State) (bs : List Byte), accepted bs = true → bs.length ≤ s.blk.bufLen.toNat → BufHolds s bs →
    ∃ t u, exec .dec { s with blk := { s.blk with cfg := { s.blk.cfg with policy := .checked } } } = .next t ∧
      exec .dec { s with blk := { s.blk with cfg := { s.blk.cfg with policy := .legacy } } } = .next u ∧
      t.blk.value = u.blk.value ∧ t.blk.count = u.blk.count ∧ t.blk.status = u.blk.status ∧ t.blk.status.err = .ok

/-! ## WRB, WRS, RD: one step -/

/-- R200, R201: WRB sends the staged sequence in one transaction and passes the sink's answer through: COUNT = k, OK or
IO_ERROR with the sink's code in IOERR. -/
def Obligations.WrbPassesAnswerThrough : Prop :=
  ∀ (s : State) (k : Nat) (r : SinkResp) (rest : List BulkResp), s.bulk = ⟨k, r⟩ :: rest → k ≤ s.blk.stageLen.toNat →
    exec .wrb s = .next { s with
      bulk := rest
      trace := s.trace ++ [.sinkBulk s.blk.staged ⟨k, r⟩]
      blk := { s.blk with
        count := BitVec.ofNat 8 k
        ioerr := match r with | .ok => s.blk.ioerr | .error e => { valid := true, code := e }
        status := { busy := false, done := true, fault := s.blk.status.fault,
                    err := match r with | .ok => .ok | .error _ => .ioError }
        phase := .idle } }

/-- R49, R200: in RUN_WRB what WRB sends is the whole canonical encoding of VALUE. -/
def Obligations.WrbSendsWholeEncoding : Prop :=
  ∀ (s t : State) (a : BulkResp) (rest : List BulkResp), s.Inv → s.blk.phase = .runWrb → s.bulk = a :: rest →
    a.accepted ≤ sdnvLen s.blk.value.toNat → coreMove s = .next t →
    t.trace = s.trace ++ [.sinkBulk (sdnvEncode s.blk.value.toNat) a] ∧ t.blk.count.toNat = a.accepted ∧
      t.blk.value = s.blk.value

/-- R76: for an answer with k > m there is no step; the refusal is the model's choice (log 8). -/
def Obligations.WrbHasNoStepForLongAnswer : Prop :=
  ∀ (s : State) (a : BulkResp) (rest : List BulkResp), s.bulk = a :: rest → s.blk.stageLen.toNat < a.accepted →
    exec .wrb s = .refused (.bulkAnswerTooLong a.accepted)

/-- R210, R212: an `Error` answer ends WRS with IO_ERROR, COUNT the bytes accepted before it. -/
def Obligations.WrsStopsAtError : Prop :=
  ∀ (s : State) (e : IoErr) (rest : List SinkResp), s.sink = .error e :: rest →
    exec .wrs s = .next { s with
      sink := rest
      trace := s.trace ++ [.sinkByte s.blk.stageByte (.error e)]
      blk := { s.blk with
        count := s.blk.n
        ioerr := { valid := true, code := e }
        status := { busy := false, done := true, fault := s.blk.status.fault, err := .ioError }
        phase := .idle } }

/-- R210, R211: in RUN_WRS the byte sent is `sdnvEncode(VALUE)[N]`; on `Ok`, N goes up by one, and WRS ends with OK and COUNT =
sdnvLen(VALUE) when that was the last byte, else it stays in RUN_WRS. -/
def Obligations.WrsSendsNextByte : Prop :=
  ∀ (s : State) (rest : List SinkResp), s.Inv → s.blk.phase = .runWrs → s.sink = .ok :: rest →
    ∃ b, (sdnvEncode s.blk.value.toNat)[s.blk.n.toNat]? = some b ∧
      (s.blk.n.toNat + 1 < sdnvLen s.blk.value.toNat → exec .wrs s = .next { s with
        sink := rest
        trace := s.trace ++ [.sinkByte b .ok]
        blk := { s.blk with n := s.blk.n + 1 } }) ∧
      (s.blk.n.toNat + 1 = sdnvLen s.blk.value.toNat → exec .wrs s = .next { s with
        sink := rest
        trace := s.trace ++ [.sinkByte b .ok]
        blk := { s.blk with
          n := s.blk.n + 1
          count := BitVec.ofNat 8 (sdnvLen s.blk.value.toNat)
          status := { busy := false, done := true, fault := s.blk.status.fault, err := .ok }
          phase := .idle } })

/-- R222: end of input before any byte, and after some; a running RD has consumed at most nine. -/
def Obligations.RdTellsAbsenceFromTruncation : Prop :=
  ∀ (s : State) (rest : List SrcResp), s.source = .endOfInput :: rest →
    exec .rd s = .next { s with
      source := rest
      trace := s.trace ++ [.srcRead .endOfInput]
      blk := { s.blk with
        count := s.blk.n
        status := { busy := false, done := true, fault := s.blk.status.fault,
                    err := if s.blk.n = 0 then .endOfInput else .unexpectedEndOfInput }
        phase := .idle } } ∧
    (s.Inv → s.blk.phase = .runRd → s.blk.n.toNat ≤ 9)

/-- R223: an `Error` answer ends RD with IO_ERROR, its code in IOERR, COUNT = N, whatever N is; VALUE is not written. -/
def Obligations.RdPassesSourceErrorThrough : Prop :=
  ∀ (s : State) (e : IoErr) (rest : List SrcResp), s.source = .error e :: rest →
    exec .rd s = .next { s with
      source := rest
      trace := s.trace ++ [.srcRead (.error e)]
      blk := { s.blk with
        count := s.blk.n
        ioerr := { valid := true, code := e }
        status := { busy := false, done := true, fault := s.blk.status.fault, err := .ioError }
        phase := .idle } }

/-- R220, R144, R224, R13: one byte of RD, in every state with N ≤ 9: the 10th byte overflows when flagged or when FIRST is not
0x81 (VALUE unchanged, COUNT 10); otherwise a flagged byte is accumulated and RD goes on, and an unflagged one ends it with OK.
That the hidden registers ACC, N and FIRST keep their values when RD ends is the model's inference (log 17, DEDUCED). -/
def Obligations.RdTakesOneByte : Prop :=
  ∀ (s : State) (b : Byte) (rest : List SrcResp), s.source = .byte b :: rest → s.blk.n.toNat ≤ 9 →
    (s.blk.n = 9 ∧ (continues b = true ∨ s.blk.first ≠ 0x81) → exec .rd s = .next { s with
      source := rest
      trace := s.trace ++ [.srcRead (.byte b)]
      blk := { s.blk with
        count := 10
        status := { busy := false, done := true, fault := s.blk.status.fault, err := .overflow64 }
        phase := .idle } }) ∧
    (s.blk.n ≠ 9 ∧ continues b = true → exec .rd s = .next { s with
      source := rest
      trace := s.trace ++ [.srcRead (.byte b)]
      blk := { s.blk with
        acc := (s.blk.acc <<< 7) ||| (groupBits b).setWidth 64
        n := s.blk.n + 1
        first := if s.blk.n = 0 then b else s.blk.first } }) ∧
    ((s.blk.n ≠ 9 ∨ s.blk.first = 0x81) ∧ continues b = false → exec .rd s = .next { s with
      source := rest
      trace := s.trace ++ [.srcRead (.byte b)]
      blk := { s.blk with
        value := (s.blk.acc <<< 7) ||| (groupBits b).setWidth 64
        count := s.blk.n + 1
        status := { busy := false, done := true, fault := s.blk.status.fault, err := .ok }
        phase := .idle } })

/-- R232: the ways a running RD ends, with the COUNT of each. -/
def Obligations.RdOutcomes : Prop :=
  ∀ s t : State, s.Inv → s.blk.phase = .runRd → coreMove s = .next t → t.blk.phase ≠ .runRd →
    (t.blk.status.err = .ok ∧ 1 ≤ t.blk.count.toNat ∧ t.blk.count.toNat ≤ 10) ∨
    (t.blk.status.err = .overflow64 ∧ t.blk.count = 10) ∨
    (t.blk.status.err = .endOfInput ∧ t.blk.count = 0) ∨
    (t.blk.status.err = .unexpectedEndOfInput ∧ 1 ≤ t.blk.count.toNat ∧ t.blk.count.toNat ≤ 9) ∨
    (t.blk.status.err = .ioError ∧ t.blk.count.toNat ≤ 9)

/-! ## WRB, WRS, RD: whole commands -/

/-- R74, R75, R76, R233: while its port has no answer a streaming command waits, however often the core is given the move:
nothing changes. A silent port is an empty list of answers (log 7). -/
def Obligations.StreamsWaitForTheirPort : Prop :=
  ∀ (s : State) (k : Nat) (ms : List Move), s.Inv →
    (s.blk.phase = .runRd ∧ s.source = [] ∨ s.blk.phase = .runWrs ∧ s.sink = [] ∨ s.blk.phase = .runWrb ∧ s.bulk = []) →
    Sys2Proof.core.run k { s with sched := List.replicate k .core ++ ms } = .next { s with sched := ms } ∧
    s.blk.status.busy = true

/-- R211, R321: an accepted WRS whose sink answers `Ok` to every byte ends after exactly sdnvLen(VALUE) steps, having sent the
bytes of the encoding in order, with OK and COUNT = sdnvLen(VALUE). -/
def Obligations.WrsSendsEncodingInOrder : Prop :=
  ∀ (s : State) (ms : List Move) (rest : List SinkResp), s.Inv → s.blk.phase = .runWrs → s.blk.n = 0 →
    s.sched = List.replicate (sdnvLen s.blk.value.toNat) .core ++ ms →
    s.sink = List.replicate (sdnvLen s.blk.value.toNat) .ok ++ rest →
    Sys2Proof.core.run (sdnvLen s.blk.value.toNat) s = .next { s with
      sched := ms
      sink := rest
      trace := s.trace ++ (sdnvEncode s.blk.value.toNat).map fun b => .sinkByte b .ok
      blk := { s.blk with
        n := BitVec.ofNat 8 (sdnvLen s.blk.value.toNat)
        count := BitVec.ofNat 8 (sdnvLen s.blk.value.toNat)
        status := { busy := false, done := true, fault := false, err := .ok }
        phase := .idle } }

/-- R211, R212: an accepted WRS whose sink first answers `Error` at byte j makes exactly j + 1 transactions, and ends with
IO_ERROR, COUNT = j and the sink's code in IOERR. -/
def Obligations.WrsPartialWrite : Prop :=
  ∀ (s : State) (j : Nat) (e : IoErr) (ms : List Move) (rest : List SinkResp), s.Inv → s.blk.phase = .runWrs → s.blk.n = 0 →
    j < sdnvLen s.blk.value.toNat → s.sched = List.replicate (j + 1) .core ++ ms →
    s.sink = List.replicate j .ok ++ .error e :: rest →
    ∃ b, (sdnvEncode s.blk.value.toNat)[j]? = some b ∧
      Sys2Proof.core.run (j + 1) s = .next { s with
        sched := ms
        sink := rest
        trace := s.trace ++ ((sdnvEncode s.blk.value.toNat).take j).map (fun b => .sinkByte b .ok) ++ [.sinkByte b (.error e)]
        blk := { s.blk with
          n := BitVec.ofNat 8 j
          count := BitVec.ofNat 8 j
          ioerr := { valid := true, code := e }
          status := { busy := false, done := true, fault := false, err := .ioError }
          phase := .idle } }

/-- R221, R226: an accepted RD whose source gives a complete SDNV that the width checks accept ends after as many steps as it has
bytes, with its value and length, having consumed exactly its bytes. -/
def Obligations.RdReadsOneRecord : Prop :=
  ∀ (s : State) (bs : List Byte) (ms : List Move) (rest : List SrcResp), s.Inv → s.blk.phase = .runRd → s.blk.n = 0 →
    accepted bs = true → s.source = bs.map .byte ++ rest → s.sched = List.replicate bs.length .core ++ ms →
    ∃ (acc : Word) (n first : Byte), Sys2Proof.core.run bs.length s = .next { s with
      sched := ms
      source := rest
      trace := s.trace ++ bs.map fun b => .srcRead (.byte b)
      blk := { s.blk with
        value := BitVec.ofNat 64 (sdnvValue bs)
        count := BitVec.ofNat 8 bs.length
        status := { busy := false, done := true, fault := false, err := .ok }
        phase := .idle
        acc := acc
        n := n
        first := first } } ∧ sdnvValue bs < 2 ^ 64

/-- R221, R224: an accepted RD whose source gives ten bytes that break a width rule ends after ten steps with OVERFLOW64 and COUNT
10, VALUE unchanged, and the eleventh byte not consumed. -/
def Obligations.RdOverflowConsumesTen : Prop :=
  ∀ (s : State) (bs : List Byte) (ms : List Move) (rest : List SrcResp), s.Inv → s.blk.phase = .runRd → s.blk.n = 0 →
    overflows bs = true → s.source = bs.map .byte ++ rest → s.sched = List.replicate 10 .core ++ ms →
    ∃ (acc : Word) (n first : Byte), Sys2Proof.core.run 10 s = .next { s with
      sched := ms
      source := rest
      trace := s.trace ++ bs.map fun b => .srcRead (.byte b)
      blk := { s.blk with
        count := 10
        status := { busy := false, done := true, fault := false, err := .overflow64 }
        phase := .idle
        acc := acc
        n := n
        first := first } }

/-- R231: once the source answers each request, a running RD ends after at most ten core steps. -/
def Obligations.RdEndsWithinTenSteps : Prop :=
  ∀ (s : State) (ms : List Move), s.Inv → s.blk.phase = .runRd → 10 ≤ s.source.length →
    s.sched = List.replicate 10 .core ++ ms →
    ∃ k t, 1 ≤ k ∧ k ≤ 10 ∧ Sys2Proof.core.run k s = .next t ∧ t.blk.phase = .idle ∧ t.blk.status.done = true ∧
      t.source = s.source.drop k

/-- R171: ENC of VALUE, then the host's DEC, under either policy, with no other host write between: VALUE as it was and COUNT its
length. Three steps of the machine. -/
def Obligations.EncThenDecRoundTrip : Prop :=
  ∀ (s : State) (line : HostLine) (ms : List Move), s.Inv → s.blk.phase = .runEnc →
    sdnvLen s.blk.value.toNat ≤ s.blk.bufLen.toNat →
    s.host.prog[s.host.pc]? = some line → line.op = .write 0 0x02 → s.sched = .core :: .host :: .core :: ms →
    ∃ t, Sys2Proof.core.run 3 s = .next t ∧ t.blk.value = s.blk.value ∧
      t.blk.count = BitVec.ofNat 8 (sdnvLen s.blk.value.toNat) ∧ t.blk.status.err = .ok ∧ t.blk.status.done = true ∧
      t.blk.bufLen = s.blk.bufLen

/-! ## Writing CMD -/

/-- R266: a host write of `v` to CMD: FAULT before BUSY before illegal word; else the command is accepted, with its Entry action,
and the core then runs it (exec is the core's step: log 5). The Entry actions are those of R200, R210 and R220; that WRB leaves N as
it was is the model's reading of R200 (log 20, DEDUCED). -/
def Obligations.AcceptanceOrder : Prop :=
  ∀ (s : State) (v : Word), ∃ t, hostOp (.write 0 v) s = .next t ∧
    t = { s with blk := t.blk, host := { s.host with pc := s.host.pc + 1 }, trace := s.trace ++ [.regWrite 0 v] } ∧
    (s.blk.status.fault = true → t.blk = s.blk) ∧
    (s.blk.status.busy = true → t.blk = s.blk) ∧
    (s.blk.status.fault = false → s.blk.status.busy = false →
      (∀ e, decode (v.setWidth 8) = .error e →
        t.blk = { s.blk with
          status := { busy := false, done := true, fault := false, err := .illegalCommand }
          count := 0
          ioerr := { valid := false, code := 0 } }) ∧
      (∀ i, decode (v.setWidth 8) = .ok i →
        t.blk = { s.blk with
          opl := oplOf (encode i)
          status := { busy := true, done := false, fault := false, err := .ok }
          count := 0
          ioerr := { valid := false, code := 0 }
          phase := runPhase i
          acc := if i = .rd then 0 else s.blk.acc
          n := if i = .rd ∨ i = .wrs then 0 else s.blk.n
          first := if i = .rd then 0 else s.blk.first
          stage := t.blk.stage
          stageLen := t.blk.stageLen } ∧
        (if i = .wrb ∨ i = .wrs then
            t.blk.staged = sdnvEncode s.blk.value.toNat ∧ t.blk.stageLen.toNat = sdnvLen s.blk.value.toNat
          else t.blk.stage = s.blk.stage ∧ t.blk.stageLen = s.blk.stageLen) ∧
        coreMove t = exec i t))

/-- R267: an illegal word written when the block accepts commands. -/
def Obligations.IllegalCommandCompletes : Prop :=
  ∀ (s : State) (v : Word) (e : DecodeError), s.blk.status.fault = false → s.blk.status.busy = false →
    decode (v.setWidth 8) = .error e →
    hostOp (.write 0 v) s = .next { s with
      host := { s.host with pc := s.host.pc + 1 }
      trace := s.trace ++ [.regWrite 0 v]
      blk := { s.blk with
        status := { busy := false, done := true, fault := s.blk.status.fault, err := .illegalCommand }
        count := 0
        ioerr := { valid := false, code := 0 } } }

/-- R312: while BUSY, host writes to CMD, VALUE, BUF_LEN and BUF have no effect, and reads still work. -/
def Obligations.WritesWhileBusyIgnored : Prop :=
  ∀ s : State, s.blk.status.busy = true →
    (∀ r v, hostOp (.write r v) s = .next { s with
      host := { s.host with pc := s.host.pc + 1 }, trace := s.trace ++ [.regWrite r v] }) ∧
    (∀ i v, hostOp (.bufWrite i v) s = .next { s with
      host := { s.host with pc := s.host.pc + 1 }, trace := s.trace ++ [.bufWrite i v] }) ∧
    (∀ r x, ∃ t, hostOp (.read r x) s = .next t ∧ t.blk = s.blk ∧ assocGet t.host.vars x = some (s.blk.regRead r)) ∧
    (∀ i x, ∃ t, hostOp (.bufRead i x) s = .next t ∧ t.blk = s.blk ∧
      assocGet t.host.vars x = some ((s.blk.bufRead s.draws i).setWidth 64))

/-! ## Registers, BUF, reset -/

/-- R34, R39 to R43, R52, R53, R73, R260: what a host read of each of the 16 registers gives. -/
def Obligations.RegisterReads : Prop :=
  ∀ b : Block,
    b.regRead 0 = 0 ∧ b.regRead 2 = b.value ∧ b.regRead 3 = b.count.setWidth 64 ∧ b.regRead 4 = b.bufLen.setWidth 64 ∧
    (b.regRead 1).toNat = b.status.busy.toNat + 2 * b.status.done.toNat + 4 * b.status.fault.toNat +
      16 * (match b.status.err with
        | .ok => 0 | .bufferTooSmall => 1 | .overflow64 => 2 | .endOfInput => 3
        | .unexpectedEndOfInput => 4 | .ioError => 5 | .illegalCommand => 6 | .boundsFault => 7) ∧
    (b.regRead 5).toNat = b.ioerr.valid.toNat * 2 ^ 32 + b.ioerr.code.toNat ∧
    (b.regRead 6).toNat = 10 + 16 * (match b.cfg.policy with | .checked => 0 | .legacy => 1) + 256 * b.cfg.bufMax.toNat ∧
    ∀ r : BitVec 4, 7 ≤ r.toNat → b.regRead r = 0

/-- R41: CONFIG's fields, and that every step leaves what it reads. -/
def Obligations.ConfigIsConstant : Prop :=
  (∀ b : Block, (b.regRead 6).toNat =
    10 + 16 * (match b.cfg.policy with | .checked => 0 | .legacy => 1) + 256 * b.cfg.bufMax.toNat) ∧
  ∀ s t : State, step s = .next t → t.blk.regRead 6 = s.blk.regRead 6

/-- R42: a host write of BUF_LEN stores min(v[7:0], BUF_MAX), is ignored while BUSY, and no command writes BUF_LEN; on the block,
and as the host's operation with its frame. -/
def Obligations.BufLenIsWriteAnyReadLegal : Prop :=
  (∀ (b : Block) (v : Word), b.status.busy = false →
    b.regWrite 4 v = { b with bufLen := BitVec.ofNat 8 (min (v.toNat % 256) b.cfg.bufMax.toNat) }) ∧
  (∀ (b : Block) (v : Word), b.status.busy = true → b.regWrite 4 v = b) ∧
  (∀ (s : State) (v : Word), s.blk.status.busy = false → hostOp (.write 4 v) s = .next { s with
    host := { s.host with pc := s.host.pc + 1 }
    trace := s.trace ++ [.regWrite 4 v]
    blk := { s.blk with bufLen := BitVec.ofNat 8 (min (v.toNat % 256) s.blk.cfg.bufMax.toNat) } }) ∧
  (∀ (b : Block) (w : Byte), (b.issue w).bufLen = b.bufLen) ∧
  ∀ (i : Instr) (s t : State), exec i s = .next t → t.blk.bufLen = s.blk.bufLen

/-- R71, R72, R53: the host's BufWrite and BufRead, an index ≥ BUF_MAX included: what each does to the block, and that in every
state the host's operation does that and nothing else. -/
def Obligations.BufAccess : Prop :=
  (∀ (s : State) (i : Byte) (v : Word), hostOp (.bufWrite i v) s = .next { s with
    blk := s.blk.bufWrite i v
    host := { s.host with pc := s.host.pc + 1 }
    trace := s.trace ++ [.bufWrite i v] }) ∧
  (∀ (s : State) (i : Byte) (v : Word), s.blk.status.busy = false → ∃ t, hostOp (.bufWrite i v) s = .next t ∧
    ∀ d j, t.blk.bufRead d j =
      if j = i ∧ i < s.blk.cfg.bufMax then v.setWidth 8 else s.blk.bufRead d j) ∧
  (∀ (b : Block) (d : Nat) (i : Byte), b.bufRead d i = if i < b.cfg.bufMax then b.buf.byteAt d i.toNat else 0) ∧
  (∀ (b : Block) (i : Byte) (v : Word), b.cfg.bufMax ≤ i → b.bufWrite i v = b) ∧
  ∀ (b : Block) (i : Byte) (v : Word), i < b.cfg.bufMax → b.status.busy = false →
    (∀ d, (b.bufWrite i v).bufRead d i = v.setWidth 8) ∧
    (∀ d j, j ≠ i → (b.bufWrite i v).bufRead d j = b.bufRead d j) ∧
    b.bufWrite i v = { b with buf := (b.bufWrite i v).buf }

/-- R39, R42, R52, R53, R72, R73: host writes of VALUE and CMD, and of the registers that ignore writes: what each does to the block,
and that in every state the host's operation does that and nothing else. -/
def Obligations.RegisterWrites : Prop :=
  (∀ (s : State) (r : BitVec 4) (v : Word), hostOp (.write r v) s = .next { s with
    blk := s.blk.regWrite r v
    host := { s.host with pc := s.host.pc + 1 }
    trace := s.trace ++ [.regWrite r v] }) ∧
  (∀ (s : State) (v : Word), s.blk.status.busy = false → hostOp (.write 2 v) s = .next { s with
    blk := { s.blk with value := v }
    host := { s.host with pc := s.host.pc + 1 }
    trace := s.trace ++ [.regWrite 2 v] }) ∧
  (∀ (s : State) (r : BitVec 4) (v : Word), r ≠ 0 → r ≠ 2 → r ≠ 4 → hostOp (.write r v) s = .next { s with
    host := { s.host with pc := s.host.pc + 1 }
    trace := s.trace ++ [.regWrite r v] }) ∧
  ∀ (b : Block) (v : Word), b.status.busy = false →
    b.regWrite 2 v = { b with value := v } ∧ b.regWrite 0 v = b.issue (v.setWidth 8) ∧
    b.regWrite 1 v = b ∧ b.regWrite 3 v = b ∧ b.regWrite 5 v = b ∧ b.regWrite 6 v = b ∧
    ∀ r : BitVec 4, 7 ≤ r.toNat → b.regWrite r v = b

/-- R300 to R303: reset gives every register its reset value whatever the block was doing, and the registers then read as they do
after power-on; BUF is unspecified, each read of it a free draw (log 3); what the streams have moved stays moved. That reset is a
move of the schedule, and that the host and the answers to come stay as they were, is the model's (log 19). -/
def Obligations.ResetEffect : Prop :=
  ∀ (s : State) (ms : List Move), s.sched = .reset :: ms →
    ∃ t, step s = .next t ∧ t.blk.status = { busy := false, done := false, fault := false, err := .ok } ∧
      t.blk.value = 0 ∧ t.blk.count = 0 ∧ t.blk.bufLen = 0 ∧ t.blk.ioerr = { valid := false, code := 0 } ∧
      t.blk.regRead 1 = 0 ∧ t.blk.regRead 5 = 0 ∧ t.blk.regRead 6 = s.blk.regRead 6 ∧ t.blk.phase = .idle ∧
      (∀ r, t.blk.regRead r = (State.resetWith s.blk.cfg).blk.regRead r) ∧
      (∀ d j, t.blk.buf.byteAt d j = Config.freeBufByte d j) ∧
      t.source = s.source ∧ t.sink = s.sink ∧ t.bulk = s.bulk ∧ t.host = s.host ∧ t.trace = s.trace ++ [.reset]

/-- R72, R53, R81: in every state a host read puts the register's value, or the BUF byte zero-extended, into its variable, and
changes nothing else but the host's line, the trace and, for a BUF byte, the count of free draws (log 3); and no host operation
but a write has a side effect on the block or the streams. -/
def Obligations.HostReadsHaveNoSideEffect : Prop :=
  (∀ (s : State) (r : BitVec 4) (x : Nat), ∃ vars,
    hostOp (.read r x) s = .next { s with
      host := { prog := s.host.prog, pc := s.host.pc + 1, vars := vars }
      trace := s.trace ++ [.regRead r (s.blk.regRead r)] } ∧
    assocGet vars x = some (s.blk.regRead r) ∧ ∀ y, y ≠ x → assocGet vars y = assocGet s.host.vars y) ∧
  (∀ (s : State) (i : Byte) (x : Nat), ∃ vars,
    hostOp (.bufRead i x) s = .next { s with
      host := { prog := s.host.prog, pc := s.host.pc + 1, vars := vars }
      trace := s.trace ++ [.bufRead i (s.blk.bufRead s.draws i)]
      draws := s.draws + 1 } ∧
    assocGet vars x = some ((s.blk.bufRead s.draws i).setWidth 64) ∧
    ∀ y, y ≠ x → assocGet vars y = assocGet s.host.vars y) ∧
  ∀ (s t : State) (op : HostOp), (∀ r v, op ≠ .write r v) → (∀ i v, op ≠ .bufWrite i v) → hostOp op s = .next t →
    t.blk = s.blk ∧ t.source = s.source ∧ t.sink = s.sink ∧ t.bulk = s.bulk

/-- R126: `BZ` jumps to the line with the label when (variable & mask) = 0 and otherwise falls through; it is no transaction. -/
def Obligations.BranchOnZero : Prop :=
  ∀ (s : State) (x : Nat) (v mask : Word) (l : Label), assocGet s.host.vars x = some v →
    (v &&& mask ≠ 0 → hostOp (.bz x mask l) s = .next { s with host := { s.host with pc := s.host.pc + 1 } }) ∧
    ∀ p, findLabel s.host.prog l = some p → v &&& mask = 0 →
      hostOp (.bz x mask l) s = .next { s with host := { s.host with pc := p } } ∧
      ∃ line, s.host.prog[p]? = some line ∧ l ∈ line.labels

/-- R127: what each pseudo-instruction stands for; a BWS writes byte j of its list at index idx + j. The name of the fresh label is the
model's (log 18). -/
def Obligations.PseudoInstructionsExpand : Prop :=
  (∀ k, (SrcOp.cmd .enc).expand k = [⟨[], .write 0 0x01⟩] ∧ (SrcOp.cmd .dec).expand k = [⟨[], .write 0 0x02⟩] ∧
    (SrcOp.cmd .wrb).expand k = [⟨[], .write 0 0x03⟩] ∧ (SrcOp.cmd .wrs).expand k = [⟨[], .write 0 0x0B⟩] ∧
    (SrcOp.cmd .rd).expand k = [⟨[], .write 0 0x04⟩]) ∧
  (∀ k x, (SrcOp.wait x).expand k = [⟨[.fresh k], .read 1 x⟩, ⟨[], .bz x 0x02 (.fresh k)⟩]) ∧
  ∀ k i bs, (SrcOp.bws i bs).wf = true →
    ((SrcOp.bws i bs).expand k).length = bs.length ∧
    ∀ j b, bs[j]? = some b → ∃ i', i'.toNat = i.toNat + j ∧
      ((SrcOp.bws i bs).expand k)[j]? = some ⟨[], .bufWrite i' (b.setWidth 64)⟩

/-- R127: one turn of a WAIT's two lines, at the host's moves: its variable gets STATUS, and the host goes on past the WAIT when DONE
is 1 and back to its first line otherwise. The block does nothing. -/
def Obligations.WaitPollsStatus : Prop :=
  ∀ (s : State) (x : Nat) (l : Label) (ls : List Label) (ms : List Move),
    s.host.prog[s.host.pc]? = some ⟨ls, .read 1 x⟩ → s.host.prog[s.host.pc + 1]? = some ⟨[], .bz x 0x02 l⟩ →
    findLabel s.host.prog l = some s.host.pc → s.sched = .host :: .host :: ms →
    ∃ t, Sys2Proof.core.run 2 s = .next t ∧ t.blk = s.blk ∧ assocGet t.host.vars x = some (s.blk.regRead 1) ∧
      t.host.pc = (if s.blk.status.done then s.host.pc + 2 else s.host.pc) ∧ t.sched = ms

/-! ## The whole machine -/

/-- In a `RUN_x` phase the core's move is exec of command x (R31, R45), and the step adds nothing to it but taking the move off
the schedule. -/
def Obligations.StepRunsLatchedCommand : Prop :=
  ∀ (s : State) (i : Instr), s.Inv → s.blk.phase = runPhase i → s.takeMove.1 = .core →
    decode (oplWord s.blk.opl) = .ok i ∧ step s = exec i { s with sched := s.sched.tail }

/-- The invariant holds of every block just reset. -/
def Obligations.InvAtReset : Prop := ∀ p : Params, p.wf = true → (State.resetWith p).Inv

/-- Every step keeps the invariant: BUF's canonical form and bounds, BUSY exactly in the RUN phases, FAULT exactly in FAULTED,
ERR, COUNT and IOERR cleared while BUSY, OPL, STAGE, N, ACC and FIRST as the running command left them. -/
def Obligations.StepKeepsInv : Prop := ∀ s t : State, s.Inv → step s = .next t → t.Inv

/-- From a state of the invariant the machine stops only for an illegal answer of the sink (R76) or a host branch to no line
(the model's fault for it is log 11, as R126 says nothing of it): with the sink's duty and a well-formed host program every step
has a next state. -/
def Obligations.MachineProceeds : Prop :=
  ∀ s : State, s.Inv → s.BulkDuty → progWf s.host.prog = true → Proceeds s

/-- R37: FAULT is set only by the LEGACY decoder's fault, cleared only by reset, and while it is 1 no command is accepted. -/
def Obligations.FaultIsSticky : Prop :=
  ∀ s t : State, step s = .next t →
    (s.blk.status.fault = false → t.blk.status.fault = true →
      s.takeMove.1 = .core ∧ s.blk.fetch = some (.ok .dec) ∧ s.blk.cfg.policy = .legacy ∧ t.blk.status.err = .boundsFault ∧
        t.blk.phase = .faulted) ∧
    (s.blk.status.fault = true → t.blk.status.fault = false → s.takeMove.1 = .reset) ∧
    (s.blk.status.fault = true → ∀ v, s.blk.regWrite 0 v = s.blk)

/-- R269: in FAULTED, FAULT is 1, only reset leaves the phase, STATUS, COUNT and IOERR stay, CMD writes are ignored, host reads work,
and host writes to VALUE, BUF_LEN and BUF land. -/
def Obligations.FaultedUntilReset : Prop :=
  ∀ s t : State, s.Inv → s.blk.phase = .faulted → step s = .next t →
    s.blk.status.fault = true ∧
    (s.takeMove.1 ≠ .reset → t.blk.phase = .faulted ∧ t.blk.status = s.blk.status ∧ t.blk.count = s.blk.count ∧
      t.blk.ioerr = s.blk.ioerr ∧ t.source = s.source ∧ t.sink = s.sink ∧ t.bulk = s.bulk) ∧
    (s.takeMove.1 = .reset → t.blk.phase = .idle ∧ t.blk.status.fault = false) ∧
    (∀ v, s.blk.regWrite 0 v = s.blk) ∧
    (∀ r x, ∃ u, hostOp (.read r x) s = .next u ∧ assocGet u.host.vars x = some (s.blk.regRead r)) ∧
    (∀ v, (s.blk.regWrite 2 v).value = v) ∧
    (∀ v, (s.blk.regWrite 4 v).bufLen = Params.clampLen s.blk.cfg (v.setWidth 8)) ∧
    ∀ i v, i < s.blk.cfg.bufMax → assocGet (s.blk.bufWrite i v).buf i.toNat = some (v.setWidth 8)

/-- R35: BUSY is 1 exactly in the RUN phases; only acceptance sets it, only a completion (DONE 1) or reset clears it. -/
def Obligations.BusyExactlyWhileRunning : Prop :=
  ∀ s t : State, s.Inv → step s = .next t →
    (t.blk.status.busy = true ↔ t.blk.phase = .runEnc ∨ t.blk.phase = .runDec ∨ t.blk.phase = .runWrb ∨
      t.blk.phase = .runWrs ∨ t.blk.phase = .runRd) ∧
    (s.blk.status.busy = false → t.blk.status.busy = true →
      ∃ v i, t.trace = s.trace ++ [.regWrite 0 v] ∧ decode (v.setWidth 8) = .ok i ∧ t.blk.phase = runPhase i) ∧
    (s.blk.status.busy = true → t.blk.status.busy = false →
      (s.takeMove.1 = .core ∧ t.blk.status.done = true) ∨ s.takeMove.1 = .reset)

/-- R39: VALUE changes only by a host write while not BUSY, by a DEC or RD that completes with OK, or by reset. -/
def Obligations.WhoWritesValue : Prop :=
  ∀ s t : State, s.Inv → step s = .next t → t.blk.value ≠ s.blk.value →
    (s.blk.status.busy = false ∧ t.trace = s.trace ++ [.regWrite 2 t.blk.value]) ∨
    (s.takeMove.1 = .core ∧ (s.blk.phase = .runDec ∨ s.blk.phase = .runRd) ∧ t.blk.status.err = .ok ∧
      t.blk.status.done = true) ∨
    s.takeMove.1 = .reset

/-- R44: BUF changes only by a host write while not BUSY, by an ENC that completes with OK, or by reset. -/
def Obligations.WhoWritesBuf : Prop :=
  ∀ s t : State, s.Inv → step s = .next t → t.blk.buf ≠ s.blk.buf →
    (s.blk.status.busy = false ∧ ∃ i v, i < s.blk.cfg.bufMax ∧ t.trace = s.trace ++ [.bufWrite i v]) ∨
    (s.takeMove.1 = .core ∧ s.blk.phase = .runEnc ∧ t.blk.status.err = .ok ∧ t.blk.status.done = true) ∨
    s.takeMove.1 = .reset

/-- R268: STATUS, COUNT and IOERR of a completed command stay until the next CMD write that is a command or an illegal word, or
reset. -/
def Obligations.CompletionIsKept : Prop :=
  ∀ s t : State, s.Inv → s.blk.status.done = true → step s = .next t → s.takeMove.1 ≠ .reset →
    (∀ v, t.trace ≠ s.trace ++ [.regWrite 0 v]) →
    t.blk.status = s.blk.status ∧ t.blk.count = s.blk.count ∧ t.blk.ioerr = s.blk.ioerr ∧ t.blk.phase = s.blk.phase

/-- Two blocks that a host cannot tell apart now or later: the same but for the hidden registers that the running command (if
any) writes before it reads them (R51). -/
structure HostEq (b c : Block) : Prop where
  same : c = { b with opl := c.opl, acc := c.acc, n := c.n, first := c.first, stage := c.stage, stageLen := c.stageLen }
  opl : b.phase.isRun = true → c.opl = b.opl
  rd : b.phase = .runRd → c.acc = b.acc ∧ c.n = b.n ∧ c.first = b.first
  wr : b.phase = .runWrb ∨ b.phase = .runWrs → c.staged = b.staged ∧ c.stageLen = b.stageLen
  wrs : b.phase = .runWrs → c.n = b.n

/-- R51: the result of a command depends only on the host-visible registers, BUF and the port answers: from two states that differ
only in hidden registers the next command does not read, the steps correspond, in every step. -/
def Obligations.HiddenStateIsNotSeen : Prop :=
  ∀ s s' t : State, s.Inv → s'.Inv → HostEq s.blk s'.blk → s' = { s with blk := s'.blk } → step s = .next t →
    ∃ t', step s' = .next t' ∧ HostEq t.blk t'.blk ∧ t' = { t with blk := t'.blk }

/-- Every state a run reaches meets the invariant. -/
def Obligations.ReachableStatesMeetInv : Prop := ∀ s : State, Reachable s → s.Inv
end

