-- ==== Sys2Proof/Laws/State.lean ====
section
/-! SUPPORT. One lemma for each field of the block under each named update: what it becomes, or that it stays. -/

namespace Sys2Proof.Machine


/-! ## `Block.finish` -/

@[simp] theorem Block.finish_cfg (c : ErrCode) (k : Byte) (b : Block) : (b.finish c k).cfg = b.cfg := rfl
@[simp] theorem Block.finish_phase (c : ErrCode) (k : Byte) (b : Block) : (b.finish c k).phase = .idle := rfl
@[simp] theorem Block.finish_status (c : ErrCode) (k : Byte) (b : Block) : (b.finish c k).status = b.status.completed c := rfl
@[simp] theorem Block.finish_value (c : ErrCode) (k : Byte) (b : Block) : (b.finish c k).value = b.value := rfl
@[simp] theorem Block.finish_count (c : ErrCode) (k : Byte) (b : Block) : (b.finish c k).count = k := rfl
@[simp] theorem Block.finish_bufLen (c : ErrCode) (k : Byte) (b : Block) : (b.finish c k).bufLen = b.bufLen := rfl
@[simp] theorem Block.finish_ioerr (c : ErrCode) (k : Byte) (b : Block) : (b.finish c k).ioerr = b.ioerr := rfl
@[simp] theorem Block.finish_buf (c : ErrCode) (k : Byte) (b : Block) : (b.finish c k).buf = b.buf := rfl
@[simp] theorem Block.finish_opl (c : ErrCode) (k : Byte) (b : Block) : (b.finish c k).opl = b.opl := rfl
@[simp] theorem Block.finish_acc (c : ErrCode) (k : Byte) (b : Block) : (b.finish c k).acc = b.acc := rfl
@[simp] theorem Block.finish_n (c : ErrCode) (k : Byte) (b : Block) : (b.finish c k).n = b.n := rfl
@[simp] theorem Block.finish_first (c : ErrCode) (k : Byte) (b : Block) : (b.finish c k).first = b.first := rfl
@[simp] theorem Block.finish_stage (c : ErrCode) (k : Byte) (b : Block) : (b.finish c k).stage = b.stage := rfl
@[simp] theorem Block.finish_stageLen (c : ErrCode) (k : Byte) (b : Block) : (b.finish c k).stageLen = b.stageLen := rfl

/-! ## `Block.fault` -/

@[simp] theorem Block.fault_cfg (c : ErrCode) (k : Byte) (b : Block) : (b.fault c k).cfg = b.cfg := rfl
@[simp] theorem Block.fault_phase (c : ErrCode) (k : Byte) (b : Block) : (b.fault c k).phase = .faulted := rfl
@[simp] theorem Block.fault_status (c : ErrCode) (k : Byte) (b : Block) : (b.fault c k).status = .faulted c := rfl
@[simp] theorem Block.fault_value (c : ErrCode) (k : Byte) (b : Block) : (b.fault c k).value = b.value := rfl
@[simp] theorem Block.fault_count (c : ErrCode) (k : Byte) (b : Block) : (b.fault c k).count = k := rfl
@[simp] theorem Block.fault_bufLen (c : ErrCode) (k : Byte) (b : Block) : (b.fault c k).bufLen = b.bufLen := rfl
@[simp] theorem Block.fault_ioerr (c : ErrCode) (k : Byte) (b : Block) : (b.fault c k).ioerr = b.ioerr := rfl
@[simp] theorem Block.fault_buf (c : ErrCode) (k : Byte) (b : Block) : (b.fault c k).buf = b.buf := rfl
@[simp] theorem Block.fault_opl (c : ErrCode) (k : Byte) (b : Block) : (b.fault c k).opl = b.opl := rfl
@[simp] theorem Block.fault_acc (c : ErrCode) (k : Byte) (b : Block) : (b.fault c k).acc = b.acc := rfl
@[simp] theorem Block.fault_n (c : ErrCode) (k : Byte) (b : Block) : (b.fault c k).n = b.n := rfl
@[simp] theorem Block.fault_first (c : ErrCode) (k : Byte) (b : Block) : (b.fault c k).first = b.first := rfl
@[simp] theorem Block.fault_stage (c : ErrCode) (k : Byte) (b : Block) : (b.fault c k).stage = b.stage := rfl
@[simp] theorem Block.fault_stageLen (c : ErrCode) (k : Byte) (b : Block) : (b.fault c k).stageLen = b.stageLen := rfl

/-! ## `Block.finishIo` -/

@[simp] theorem Block.finishIo_cfg (e : IoErr) (k : Byte) (b : Block) : (b.finishIo e k).cfg = b.cfg := rfl
@[simp] theorem Block.finishIo_phase (e : IoErr) (k : Byte) (b : Block) : (b.finishIo e k).phase = .idle := rfl
@[simp] theorem Block.finishIo_status (e : IoErr) (k : Byte) (b : Block) : (b.finishIo e k).status = b.status.completed .ioError := rfl
@[simp] theorem Block.finishIo_value (e : IoErr) (k : Byte) (b : Block) : (b.finishIo e k).value = b.value := rfl
@[simp] theorem Block.finishIo_count (e : IoErr) (k : Byte) (b : Block) : (b.finishIo e k).count = k := rfl
@[simp] theorem Block.finishIo_bufLen (e : IoErr) (k : Byte) (b : Block) : (b.finishIo e k).bufLen = b.bufLen := rfl
@[simp] theorem Block.finishIo_ioerr (e : IoErr) (k : Byte) (b : Block) : (b.finishIo e k).ioerr = .of e := rfl
@[simp] theorem Block.finishIo_buf (e : IoErr) (k : Byte) (b : Block) : (b.finishIo e k).buf = b.buf := rfl
@[simp] theorem Block.finishIo_opl (e : IoErr) (k : Byte) (b : Block) : (b.finishIo e k).opl = b.opl := rfl
@[simp] theorem Block.finishIo_acc (e : IoErr) (k : Byte) (b : Block) : (b.finishIo e k).acc = b.acc := rfl
@[simp] theorem Block.finishIo_n (e : IoErr) (k : Byte) (b : Block) : (b.finishIo e k).n = b.n := rfl
@[simp] theorem Block.finishIo_first (e : IoErr) (k : Byte) (b : Block) : (b.finishIo e k).first = b.first := rfl
@[simp] theorem Block.finishIo_stage (e : IoErr) (k : Byte) (b : Block) : (b.finishIo e k).stage = b.stage := rfl
@[simp] theorem Block.finishIo_stageLen (e : IoErr) (k : Byte) (b : Block) : (b.finishIo e k).stageLen = b.stageLen := rfl

/-! ## `Block.loadStage` -/

@[simp] theorem Block.loadStage_cfg (e : List Byte) (b : Block) : (b.loadStage e).cfg = b.cfg := rfl
@[simp] theorem Block.loadStage_phase (e : List Byte) (b : Block) : (b.loadStage e).phase = b.phase := rfl
@[simp] theorem Block.loadStage_status (e : List Byte) (b : Block) : (b.loadStage e).status = b.status := rfl
@[simp] theorem Block.loadStage_value (e : List Byte) (b : Block) : (b.loadStage e).value = b.value := rfl
@[simp] theorem Block.loadStage_count (e : List Byte) (b : Block) : (b.loadStage e).count = b.count := rfl
@[simp] theorem Block.loadStage_bufLen (e : List Byte) (b : Block) : (b.loadStage e).bufLen = b.bufLen := rfl
@[simp] theorem Block.loadStage_ioerr (e : List Byte) (b : Block) : (b.loadStage e).ioerr = b.ioerr := rfl
@[simp] theorem Block.loadStage_buf (e : List Byte) (b : Block) : (b.loadStage e).buf = b.buf := rfl
@[simp] theorem Block.loadStage_opl (e : List Byte) (b : Block) : (b.loadStage e).opl = b.opl := rfl
@[simp] theorem Block.loadStage_acc (e : List Byte) (b : Block) : (b.loadStage e).acc = b.acc := rfl
@[simp] theorem Block.loadStage_n (e : List Byte) (b : Block) : (b.loadStage e).n = b.n := rfl
@[simp] theorem Block.loadStage_first (e : List Byte) (b : Block) : (b.loadStage e).first = b.first := rfl
@[simp] theorem Block.loadStage_stage (e : List Byte) (b : Block) : (b.loadStage e).stage = stageWith e b.stage := rfl
@[simp] theorem Block.loadStage_stageLen (e : List Byte) (b : Block) : (b.loadStage e).stageLen = BitVec.ofNat 4 e.length := rfl

/-! ## `Block.illegal` -/

@[simp] theorem Block.illegal_cfg (b : Block) : (b.illegal).cfg = b.cfg := rfl
@[simp] theorem Block.illegal_phase (b : Block) : (b.illegal).phase = b.phase := rfl
@[simp] theorem Block.illegal_status (b : Block) : (b.illegal).status = b.status.completed .illegalCommand := rfl
@[simp] theorem Block.illegal_value (b : Block) : (b.illegal).value = b.value := rfl
@[simp] theorem Block.illegal_count (b : Block) : (b.illegal).count = 0 := rfl
@[simp] theorem Block.illegal_bufLen (b : Block) : (b.illegal).bufLen = b.bufLen := rfl
@[simp] theorem Block.illegal_ioerr (b : Block) : (b.illegal).ioerr = .none := rfl
@[simp] theorem Block.illegal_buf (b : Block) : (b.illegal).buf = b.buf := rfl
@[simp] theorem Block.illegal_opl (b : Block) : (b.illegal).opl = b.opl := rfl
@[simp] theorem Block.illegal_acc (b : Block) : (b.illegal).acc = b.acc := rfl
@[simp] theorem Block.illegal_n (b : Block) : (b.illegal).n = b.n := rfl
@[simp] theorem Block.illegal_first (b : Block) : (b.illegal).first = b.first := rfl
@[simp] theorem Block.illegal_stage (b : Block) : (b.illegal).stage = b.stage := rfl
@[simp] theorem Block.illegal_stageLen (b : Block) : (b.illegal).stageLen = b.stageLen := rfl

/-! ## `Block.ready` -/

@[simp] theorem Block.ready_cfg (b : Block) : (b.ready).cfg = b.cfg := rfl
@[simp] theorem Block.ready_phase (b : Block) : (b.ready).phase = .idle := rfl
@[simp] theorem Block.ready_status (b : Block) : (b.ready).status = { b.status with busy := false, fault := false } := rfl
@[simp] theorem Block.ready_value (b : Block) : (b.ready).value = b.value := rfl
@[simp] theorem Block.ready_count (b : Block) : (b.ready).count = b.count := rfl
@[simp] theorem Block.ready_bufLen (b : Block) : (b.ready).bufLen = b.bufLen := rfl
@[simp] theorem Block.ready_ioerr (b : Block) : (b.ready).ioerr = b.ioerr := rfl
@[simp] theorem Block.ready_buf (b : Block) : (b.ready).buf = b.buf := rfl
@[simp] theorem Block.ready_opl (b : Block) : (b.ready).opl = b.opl := rfl
@[simp] theorem Block.ready_acc (b : Block) : (b.ready).acc = b.acc := rfl
@[simp] theorem Block.ready_n (b : Block) : (b.ready).n = b.n := rfl
@[simp] theorem Block.ready_first (b : Block) : (b.ready).first = b.first := rfl
@[simp] theorem Block.ready_stage (b : Block) : (b.ready).stage = b.stage := rfl
@[simp] theorem Block.ready_stageLen (b : Block) : (b.ready).stageLen = b.stageLen := rfl

/-! ## `Block.accept` -/

@[simp] theorem Block.accept_cfg (w : Byte) (i : Instr) (b : Block) : (b.accept w i).cfg = b.cfg := by cases i <;> rfl
@[simp] theorem Block.accept_status (w : Byte) (i : Instr) (b : Block) : (b.accept w i).status = b.status.accepted := by cases i <;> rfl
@[simp] theorem Block.accept_value (w : Byte) (i : Instr) (b : Block) : (b.accept w i).value = b.value := by cases i <;> rfl
@[simp] theorem Block.accept_count (w : Byte) (i : Instr) (b : Block) : (b.accept w i).count = 0 := by cases i <;> rfl
@[simp] theorem Block.accept_bufLen (w : Byte) (i : Instr) (b : Block) : (b.accept w i).bufLen = b.bufLen := by cases i <;> rfl
@[simp] theorem Block.accept_ioerr (w : Byte) (i : Instr) (b : Block) : (b.accept w i).ioerr = .none := by cases i <;> rfl
@[simp] theorem Block.accept_buf (w : Byte) (i : Instr) (b : Block) : (b.accept w i).buf = b.buf := by cases i <;> rfl
@[simp] theorem Block.accept_opl (w : Byte) (i : Instr) (b : Block) : (b.accept w i).opl = oplOf w := by cases i <;> rfl
@[simp] theorem Block.accept_phase (w : Byte) (i : Instr) (b : Block) : (b.accept w i).phase = runPhase i := rfl

/-! ## STATUS -/

@[simp] theorem Status.accepted_busy (s : Status) : s.accepted.busy = true := rfl
@[simp] theorem Status.accepted_done (s : Status) : s.accepted.done = false := rfl
@[simp] theorem Status.accepted_fault (s : Status) : s.accepted.fault = s.fault := rfl
@[simp] theorem Status.accepted_err (s : Status) : s.accepted.err = .ok := rfl
@[simp] theorem Status.completed_busy (s : Status) (c : ErrCode) : (s.completed c).busy = false := rfl
@[simp] theorem Status.completed_done (s : Status) (c : ErrCode) : (s.completed c).done = true := rfl
@[simp] theorem Status.completed_fault (s : Status) (c : ErrCode) : (s.completed c).fault = s.fault := rfl
@[simp] theorem Status.completed_err (s : Status) (c : ErrCode) : (s.completed c).err = c := rfl
@[simp] theorem Status.faulted_busy (c : ErrCode) : (Status.faulted c).busy = false := rfl
@[simp] theorem Status.faulted_done (c : ErrCode) : (Status.faulted c).done = true := rfl
@[simp] theorem Status.faulted_fault (c : ErrCode) : (Status.faulted c).fault = true := rfl
@[simp] theorem Status.faulted_err (c : ErrCode) : (Status.faulted c).err = c := rfl

@[simp] theorem IoErrReg.of_valid (e : IoErr) : (IoErrReg.of e).valid = true := rfl
@[simp] theorem IoErrReg.of_code (e : IoErr) : (IoErrReg.of e).code = e := rfl
@[simp] theorem IoErrReg.none_valid : IoErrReg.none.valid = false := rfl
@[simp] theorem IoErrReg.none_code : IoErrReg.none.code = 0 := rfl

/-- The phase of a command is a `RUN_x` phase, and no two commands share one (10_state.md R31). -/
@[simp] theorem runPhase_isRun (i : Instr) : (runPhase i).isRun = true := by cases i <;> rfl

theorem runPhase_injective (i j : Instr) (h : runPhase i = runPhase j) : i = j := by
  cases i <;> cases j <;> first | rfl | cases h

/-- A `RUN_x` phase is the phase of a command. -/
theorem exists_runPhase (p : Phase) (h : p.isRun = true) : ∃ i, p = runPhase i := by
  cases p
  · cases h
  · exact ⟨.enc, rfl⟩
  · exact ⟨.dec, rfl⟩
  · exact ⟨.wrb, rfl⟩
  · exact ⟨.wrs, rfl⟩
  · exact ⟨.rd, rfl⟩
  · cases h

/-! ## The staged sequence -/

theorem stageWith_toList (e : List Byte) (old : Vector Byte 10) (he : e.length ≤ 10) :
    (stageWith e old).toList = e ++ old.toList.drop e.length := by
  have h : (e ++ old.toList.drop e.length).length = 10 := by simp; omega
  show ((e ++ old.toList.drop e.length).take 10).toArray.toList = _
  simpa using List.take_of_length_le (Nat.le_of_eq h)

/-- Staging a sequence of at most 10 bytes and reading the staged bytes gives the sequence (10_state.md R49). -/
theorem Block.loadStage_staged (e : List Byte) (b : Block) (he : e.length ≤ 10) : (b.loadStage e).staged = e := by
  have h : (BitVec.ofNat 4 e.length).toNat = e.length := by simp; omega
  simp [Block.staged, stageWith_toList e b.stage he, h]

end Sys2Proof.Machine
end

