-- ==== Sys2Proof/Laws/Wire.lean ====
section
/-! SUPPORT. The wire format and the decoders' datapath in numbers: groups, lengths, values, and what `absorb` does. -/

namespace Sys2Proof.Machine

/-! ## One byte -/

theorem groupBits_toNat (b : Byte) : (groupBits b).toNat = b.toNat % 128 := by
  simp [groupBits, BitVec.extractLsb'_toNat]

theorem groupBits_lt (b : Byte) : (groupBits b).toNat < 128 := (groupBits b).isLt

theorem continues_iff (b : Byte) : continues b = true ↔ 128 ≤ b.toNat := by
  have h : continues b = decide (128 ≤ b.toNat) := by
    revert b; decide
  simp [h]

theorem group_eq (x i : Nat) : group x i = x / 128 ^ i % 128 := by
  have h : (0x7f : Nat) = 2 ^ 7 - 1 := rfl
  rw [group, h, Nat.and_two_pow_sub_one_eq_mod, Nat.shiftRight_eq_div_pow, Nat.pow_mul]

theorem group_lt (x i : Nat) : group x i < 128 := by rw [group_eq]; omega

/-- A byte made of a flag and a group shows both. -/
theorem flag_or_group (f : Bool) (g : Nat) (hg : g < 128) :
    continues ((if f then 0x80#8 else 0x00#8) ||| BitVec.ofNat 8 g) = f ∧
      (groupBits ((if f then 0x80#8 else 0x00#8) ||| BitVec.ofNat 8 g)).toNat = g := by
  revert f g; decide

theorem continues_wireByte (x len j : Nat) : continues (wireByte x len j) = decide (j < len - 1) := by
  have h := (flag_or_group (decide (j < len - 1)) (group x (len - 1 - j)) (group_lt _ _)).1
  simpa [wireByte] using h

theorem groupBits_wireByte (x len j : Nat) : (groupBits (wireByte x len j)).toNat = group x (len - 1 - j) := by
  have h := (flag_or_group (decide (j < len - 1)) (group x (len - 1 - j)) (group_lt _ _)).2
  simpa [wireByte] using h

/-! ## Sequences -/

theorem shift_or_group (a : Nat) (b : Byte) : (a <<< 7) ||| (groupBits b).toNat = a * 128 + (groupBits b).toNat := by
  rw [← Nat.shiftLeft_add_eq_or_of_lt (groupBits_lt b), Nat.shiftLeft_eq]

@[simp] theorem sdnvValue_nil : sdnvValue [] = 0 := rfl

theorem sdnvValue_concat (s : List Byte) (b : Byte) : sdnvValue (s ++ [b]) = sdnvValue s * 128 + (groupBits b).toNat := by
  simp [sdnvValue, List.foldl_append, shift_or_group]

theorem sdnvValue_append (s t : List Byte) : sdnvValue (s ++ t) = sdnvValue s * 128 ^ t.length + sdnvValue t := by
  induction t using List.reverseRecOn with
  | nil => simp
  | append_singleton t b ih =>
    rw [← List.append_assoc, sdnvValue_concat, sdnvValue_concat, ih]
    simp only [List.length_append, List.length_singleton, pow_succ]
    ring

theorem sdnvValue_singleton (b : Byte) : sdnvValue [b] = (groupBits b).toNat := by
  simpa using sdnvValue_concat [] b

theorem sdnvValue_cons (b : Byte) (s : List Byte) :
    sdnvValue (b :: s) = (groupBits b).toNat * 128 ^ s.length + sdnvValue s := by
  have h := sdnvValue_append [b] s
  rwa [sdnvValue_singleton] at h

theorem sdnvValue_lt (s : List Byte) : sdnvValue s < 128 ^ s.length := by
  induction s with
  | nil => simp
  | cons b s ih =>
    have hb := groupBits_lt b
    rw [sdnvValue_cons, List.length_cons, pow_succ]
    nlinarith

theorem isComplete_singleton (b : Byte) : isComplete [b] = !continues b := rfl

theorem isComplete_cons (b : Byte) (s : List Byte) (hs : s ≠ []) :
    isComplete (b :: s) = (continues b && isComplete s) := by
  cases s with
  | nil => exact absurd rfl hs
  | cons c s => rfl

/-- A complete SDNV is flagged bytes and then one unflagged byte (30_encoding.md R101). -/
theorem isComplete_iff (s : List Byte) :
    isComplete s = true ↔ ∃ p b, s = p ++ [b] ∧ (∀ x ∈ p, continues x = true) ∧ continues b = false := by
  induction s with
  | nil => simp [isComplete]
  | cons c s ih =>
    rcases eq_or_ne s [] with rfl | hs
    · constructor
      · intro h
        exact ⟨[], c, rfl, by simp, by simpa [isComplete] using h⟩
      · rintro ⟨p, b, h, -, hb⟩
        cases p with
        | nil => simp at h; subst h; simp [isComplete, hb]
        | cons a p => simp at h
    · rw [isComplete_cons c s hs, Bool.and_eq_true, ih]
      constructor
      · rintro ⟨hc, p, b, rfl, hp, hb⟩
        exact ⟨c :: p, b, rfl, by simpa [hc] using hp, hb⟩
      · rintro ⟨p, b, h, hp, hb⟩
        cases p with
        | nil => simp at h; exact absurd h.2 hs
        | cons a p =>
          simp only [List.cons_append, List.cons.injEq] at h
          obtain ⟨rfl, rfl⟩ := h
          exact ⟨hp _ (by simp), p, b, rfl, fun x hx => hp x (by simp [hx]), hb⟩

/-! ## Lengths -/

theorem sdnvLen_pos (x : Nat) : 1 ≤ sdnvLen x := by
  unfold sdnvLen; split <;> omega

/-- The canonical length is the least number of groups that hold the value (30_encoding.md R104, R105). -/
theorem sdnvLen_le_iff (x k : Nat) (hk : 1 ≤ k) : sdnvLen x ≤ k ↔ x < 2 ^ (7 * k) := by
  rcases eq_or_ne x 0 with rfl | hx
  · simp [sdnvLen, hk]
  · rw [sdnvLen, if_neg hx, bitlength, if_neg hx, ← Nat.log2_lt hx]
    omega

theorem sdnvLen_le_ten (x : Nat) (hx : x < 2 ^ 64) : sdnvLen x ≤ 10 :=
  (sdnvLen_le_iff x 10 (by omega)).2 (by omega)

@[simp] theorem sdnvEncode_length (x : Nat) : (sdnvEncode x).length = sdnvLen x := by simp [sdnvEncode]

theorem sdnvEncode_getElem? (x j : Nat) (hj : j < sdnvLen x) :
    (sdnvEncode x)[j]? = some (wireByte x (sdnvLen x) j) := by
  simp [sdnvEncode, hj]

/-- The first bytes of an encoding are the value's top groups. -/
theorem sdnvValue_take_encode (x j : Nat) (hj : j ≤ sdnvLen x) :
    sdnvValue ((sdnvEncode x).take j) = x / 128 ^ (sdnvLen x - j) := by
  induction j with
  | zero =>
    have h := (sdnvLen_le_iff x (sdnvLen x) (sdnvLen_pos x)).1 le_rfl
    rw [Nat.pow_mul] at h
    simp [Nat.div_eq_of_lt h]
  | succ j ih =>
    have hlt : j < (sdnvEncode x).length := by simpa using hj
    have hg : (sdnvEncode x)[j] = wireByte x (sdnvLen x) j := by
      have := sdnvEncode_getElem? x j (by omega)
      rwa [List.getElem?_eq_getElem hlt, Option.some.injEq] at this
    have hp : 128 ^ (sdnvLen x - j) = 128 ^ (sdnvLen x - (j + 1)) * 128 := by
      rw [← pow_succ]; congr 1; omega
    rw [List.take_succ_eq_append_getElem hlt, sdnvValue_concat, ih (by omega), hg, groupBits_wireByte, group_eq, hp,
      ← Nat.div_div_eq_div_mul]
    have : sdnvLen x - 1 - j = sdnvLen x - (j + 1) := by omega
    rw [this]
    omega

/-! ## The datapath -/

theorem accumulate_toNat (acc : Word) (b : Byte) :
    (accumulate acc b).toNat = (acc.toNat * 128 + (groupBits b).toNat) % 2 ^ 64 := by
  have hb := groupBits_lt b
  have hg : ((groupBits b).setWidth 64).toNat = (groupBits b).toNat := by
    rw [BitVec.toNat_setWidth]; exact Nat.mod_eq_of_lt (by omega)
  have hs : acc.toNat <<< 7 % 2 ^ 64 = (acc.toNat % 2 ^ 57) <<< 7 := by
    rw [Nat.shiftLeft_eq, Nat.shiftLeft_eq]; omega
  rw [accumulate, BitVec.toNat_or, BitVec.toNat_shiftLeft, hg, hs, ← Nat.shiftLeft_add_eq_or_of_lt hb, Nat.shiftLeft_eq]
  omega

/-- FIRST is the byte itself when it is the first, and stays otherwise (10_state.md R48). -/
@[simp] theorem latchFirst_zero (first b : Byte) : latchFirst 0 first b = b := rfl

theorem latchFirst_of_ne {n : Byte} (h : n ≠ 0) (first b : Byte) : latchFirst n first b = first := if_neg h

/-- What `absorb` does with a byte before the 10th, and with the 10th (40_codec_core.md R144 to R146). -/
theorem absorb_eq (acc : Word) (n first b : Byte) :
    absorb acc n first b =
      if n = 9 ∧ (continues b = true ∨ (if n = 0 then b else first) ≠ 0x81) then .overflow
      else if continues b then .more (accumulate acc b) (n + 1) (if n = 0 then b else first)
      else .done (accumulate acc b) (n + 1) := by
  have h : (n + 1 = BitVec.ofNat 8 maxByteSize) ↔ n = 9 := by revert n; decide
  simp only [absorb, latchFirst, h]

end Sys2Proof.Machine
end

