-- ==== Sys2Proof/Laws/Decoders.lean ====
section
/-! SUPPORT. The decoders: `absorb` over flagged bytes, and what each loop of DEC comes to. -/

namespace Sys2Proof.Machine

/-! ## The accumulator as a number -/

theorem accumulate_ofNat (x : Nat) (b : Byte) :
    accumulate (BitVec.ofNat 64 x) b = BitVec.ofNat 64 (x * 128 + (groupBits b).toNat) := by
  apply BitVec.eq_of_toNat_eq
  rw [accumulate_toNat, BitVec.toNat_ofNat, BitVec.toNat_ofNat]
  omega

theorem accumulate_value (s : List Byte) (b : Byte) :
    accumulate (BitVec.ofNat 64 (sdnvValue s)) b = BitVec.ofNat 64 (sdnvValue (s ++ [b])) := by
  rw [accumulate_ofNat, sdnvValue_concat]

theorem ofNat8_succ (k : Nat) : BitVec.ofNat 8 k + 1 = BitVec.ofNat 8 (k + 1) := by
  apply BitVec.eq_of_toNat_eq; simp

/-- FIRST after the bytes `s` (10_state.md R48): what it was if there are none. -/
def firstAfter (first : Byte) (s : List Byte) : Byte := s.head?.getD first

theorem firstAfter_concat (s : List Byte) (b : Byte) (hs : s.length ≤ 9) :
    (if BitVec.ofNat 8 s.length = 0 then b else firstAfter 0 s) = firstAfter 0 (s ++ [b]) := by
  cases s with
  | nil => simp [firstAfter]
  | cons c s =>
    have h : ¬BitVec.ofNat 8 (s.length + 1) = 0#8 := by
      intro h
      have := congrArg BitVec.toNat h
      simp only [List.length_cons] at hs
      simp at this
      omega
    simp [firstAfter, h]

/-! ## `absorb` from the start of a decode -/

/-- One byte after the flagged bytes `s`: what `absorb` answers, in terms of `s` (40_codec_core.md R144 to R147). -/
theorem absorb_after (s : List Byte) (b : Byte) (hs : s.length ≤ 9) :
    absorb (BitVec.ofNat 64 (sdnvValue s)) (BitVec.ofNat 8 s.length) (firstAfter 0 s) b =
      if s.length = 9 ∧ (continues b = true ∨ firstAfter 0 (s ++ [b]) ≠ 0x81) then .overflow
      else if continues b then
        .more (BitVec.ofNat 64 (sdnvValue (s ++ [b]))) (BitVec.ofNat 8 (s.length + 1)) (firstAfter 0 (s ++ [b]))
      else .done (BitVec.ofNat 64 (sdnvValue (s ++ [b]))) (BitVec.ofNat 8 (s.length + 1)) := by
  have h9 : BitVec.ofNat 8 s.length = 9 ↔ s.length = 9 := by
    constructor
    · intro h
      have := congrArg BitVec.toNat h
      simp at this
      omega
    · intro h; rw [h]; rfl
  rw [absorb_eq, firstAfter_concat s b hs, accumulate_value, ofNat8_succ]
  simp only [h9]

/-- Flagged bytes, at most nine, are all absorbed as `More` (40_codec_core.md R147). -/
theorem absorbSeq_flagged (p s t : List Byte) (hs : ∀ x ∈ s, continues x = true) (hl : p.length + s.length ≤ 9) :
    absorbSeq (BitVec.ofNat 64 (sdnvValue p)) (BitVec.ofNat 8 p.length) (firstAfter 0 p) (s ++ t) =
      absorbSeq (BitVec.ofNat 64 (sdnvValue (p ++ s))) (BitVec.ofNat 8 (p ++ s).length) (firstAfter 0 (p ++ s)) t := by
  induction s generalizing p with
  | nil => simp
  | cons x s ih =>
    simp only [List.length_cons] at hl
    have hx := hs x (by simp)
    have h9 : ¬p.length = 9 := by omega
    have h := ih (p ++ [x]) (fun y hy => hs y (by simp [hy])) (by simp; omega)
    rw [List.cons_append, absorbSeq, absorb_after p x (by omega)]
    simp only [h9, false_and, if_false, hx, if_true]
    simpa using h

theorem absorbSeq_flagged_zero (s t : List Byte) (hs : ∀ x ∈ s, continues x = true) (hl : s.length ≤ 9) :
    absorbSeq 0 0 0 (s ++ t) =
      absorbSeq (BitVec.ofNat 64 (sdnvValue s)) (BitVec.ofNat 8 s.length) (firstAfter 0 s) t := by
  have h := absorbSeq_flagged [] s t hs (by simpa using hl)
  simpa [firstAfter] using h

/-- Flagged bytes `s`, at most nine, and one byte more (40_codec_core.md R144 to R147). -/
theorem absorbSeq_last (s : List Byte) (b : Byte) (t : List Byte) (hs : ∀ x ∈ s, continues x = true) (hl : s.length ≤ 9) :
    absorbSeq 0 0 0 (s ++ b :: t) =
      if s.length = 9 ∧ (continues b = true ∨ firstAfter 0 (s ++ [b]) ≠ 0x81) then .overflow
      else if continues b then absorbSeq 0 0 0 (s ++ [b] ++ t)
      else .done (BitVec.ofNat 64 (sdnvValue (s ++ [b]))) (BitVec.ofNat 8 (s.length + 1)) := by
  rw [absorbSeq_flagged_zero s (b :: t) hs hl, absorbSeq, absorb_after s b hl]
  split_ifs with h1 h2
  · rfl
  · have h9 : s.length ≠ 9 := fun h => h1 ⟨h, .inl h2⟩
    have hsb : ∀ x ∈ s ++ [b], continues x = true := by
      intro x hx
      rcases List.mem_append.1 hx with hx | hx
      · exact hs x hx
      · rw [List.mem_singleton.1 hx]; exact h2
    rw [absorbSeq_flagged_zero (s ++ [b]) t hsb (by simp; omega)]; simp
  · rfl

/-- A sequence is ten bytes of which nine are flagged, fewer than ten all flagged, or complete in at most ten: the three ways a
checked decode goes. -/
theorem flagged_split (s : List Byte) :
    (∀ x ∈ s, continues x = true) ∨
      ∃ p b t, s = p ++ b :: t ∧ (∀ x ∈ p, continues x = true) ∧ continues b = false := by
  induction s with
  | nil => exact .inl (by simp)
  | cons c s ih =>
    by_cases hc : continues c = true
    · rcases ih with h | ⟨p, b, t, rfl, hp, hb⟩
      · exact .inl (by simpa [hc] using h)
      · exact .inr ⟨c :: p, b, t, rfl, by simpa [hc] using hp, hb⟩
    · exact .inr ⟨[], c, s, rfl, by simp, by simpa using hc⟩

/-! ## DEC CHECKED -/

/-- How a checked decode of BUF ends, from the result of absorbing its bytes (40_codec_core.md R150). -/
def Block.endDecode (b : Block) : Absorbed → Block
  | .overflow => b.finish .overflow64 10
  | .done a k => { b with value := a }.finish .ok k
  | .more _ k _ => if k = 0 then b.finish .endOfInput 0 else b.finish .unexpectedEndOfInput k

/-- The loop of DEC CHECKED absorbs the bytes left in the buffer; it changes only ACC, N and FIRST besides. -/
theorem decCheckedLoop_eq (rd : Nat → Byte) (left : Nat) (b : Block) (hn : b.n.toNat ≤ 9) :
    ∃ acc n first, decCheckedLoop rd left b =
      { b.endDecode (absorbSeq b.acc b.n b.first ((List.range left).map fun j => rd (b.n.toNat + j))) with
        acc := acc, n := n, first := first } := by
  induction left generalizing b with
  | zero =>
    refine ⟨b.acc, b.n, b.first, ?_⟩
    simp only [decCheckedLoop, List.range_zero, List.map_nil, absorbSeq, Block.endDecode]
    split <;> rfl
  | succ left ih =>
    have hr : ((List.range (left + 1)).map fun j => rd (b.n.toNat + j)) =
        rd b.n.toNat :: (List.range left).map fun j => rd (b.n.toNat + 1 + j) := by
      rw [List.range_succ_eq_map]
      simp [Function.comp_def, Nat.add_assoc, Nat.add_comm 1]
    rw [hr, decCheckedLoop, absorbSeq, absorb_eq]
    generalize hf : (if b.n = 0 then rd b.n.toNat else b.first) = f
    by_cases h1 : b.n = 9 ∧ (continues (rd b.n.toNat) = true ∨ f ≠ 0x81)
    · rw [if_pos h1]
      exact ⟨b.acc, b.n, b.first, rfl⟩
    rw [if_neg h1]
    by_cases h2 : continues (rd b.n.toNat) = true
    · rw [if_pos h2]
      have hn1 : (b.n + 1).toNat = b.n.toNat + 1 := by
        rw [BitVec.toNat_add]; simp; omega
      have hn9 : b.n.toNat ≤ 8 := by
        by_contra hc
        have : b.n = 9 := BitVec.eq_of_toNat_eq (by simp; omega)
        exact h1 ⟨this, .inl h2⟩
      obtain ⟨a, n, f', h⟩ := ih { b with acc := accumulate b.acc (rd b.n.toNat), n := b.n + 1, first := f }
        (by show (b.n + 1).toNat ≤ 9; omega)
      refine ⟨a, n, f', ?_⟩
      simp only [hn1] at h ⊢
      rw [h]
      cases absorbSeq (accumulate b.acc (rd b.n.toNat)) (b.n + 1) f
          ((List.range left).map fun j => rd (b.n.toNat + 1 + j)) <;> simp only [Block.endDecode]
      · rfl
      · rfl
      · split <;> rfl
    · rw [if_neg h2]
      exact ⟨b.acc, b.n, b.first, rfl⟩

/-- DEC CHECKED on the block, from the result of absorbing BUF[0..BUF_LEN-1]. -/
theorem decChecked_eq (rd : Nat → Byte) (b : Block) :
    ∃ acc n first, b.decChecked rd =
      { b.endDecode (absorbSeq 0 0 0 ((List.range b.bufLen.toNat).map rd)) with acc := acc, n := n, first := first } := by
  obtain ⟨a, n, f, h⟩ := decCheckedLoop_eq rd b.bufLen.toNat { b with acc := 0, n := 0, first := 0 } (by simp)
  refine ⟨a, n, f, ?_⟩
  have h0 : ((List.range b.bufLen.toNat).map fun j => rd ((0#8).toNat + j)) = (List.range b.bufLen.toNat).map rd := by
    simp
  rw [Block.decChecked, h]
  show (let x := Block.endDecode _ (absorbSeq 0 0 0 ((List.range b.bufLen.toNat).map fun j => rd ((0#8).toNat + j)));
    ({ x with acc := a, n := n, first := f } : Block)) = _
  rw [h0]
  cases absorbSeq 0 0 0 ((List.range b.bufLen.toNat).map rd) <;> simp only [Block.endDecode]
  · rfl
  · rfl
  · split <;> rfl

/-! ## DEC LEGACY -/

/-- The loop of DEC LEGACY over flagged bytes and then an unflagged one (40_codec_core.md R160, R161). -/
theorem decLegacyLoop_done (rd : Nat → Byte) (left : Nat) (b : Block) (p : List Byte) (x : Byte) (v : Nat)
    (hp : ∀ y ∈ p, continues y = true) (hx : continues x = false) (hl : p.length + 1 ≤ left)
    (hr : ∀ j, j < p.length + 1 → (p ++ [x])[j]? = some (rd (b.n.toNat + j))) (hn : b.n.toNat + left ≤ 255)
    (hv : b.acc = BitVec.ofNat 64 v) :
    ∃ acc n first, decLegacyLoop rd left b =
      { { b with value := BitVec.ofNat 64 (v * 128 ^ (p.length + 1) + sdnvValue (p ++ [x])) }.finish .ok
          (b.n + BitVec.ofNat 8 (p.length + 1)) with acc := acc, n := n, first := first } := by
  induction p generalizing left b v with
  | nil =>
    obtain ⟨left, rfl⟩ : ∃ k, left = k + 1 := ⟨left - 1, by simp at hl; omega⟩
    have h0 := hr 0 (by simp)
    simp only [List.nil_append, List.getElem?_cons_zero, Nat.add_zero, Option.some.injEq] at h0
    refine ⟨accumulate b.acc x, b.n + 1, latchFirst b.n b.first x, ?_⟩
    simp [decLegacyLoop, ← h0, hx, hv, accumulate_ofNat, sdnvValue_singleton, Block.finish]
  | cons y p ih =>
    obtain ⟨left, rfl⟩ : ∃ k, left = k + 1 := ⟨left - 1, by simp at hl; omega⟩
    simp only [List.length_cons] at hl hr
    have h0 := hr 0 (by omega)
    simp only [List.cons_append, List.getElem?_cons_zero, Nat.add_zero, Option.some.injEq] at h0
    have hn1 : (b.n + 1).toNat = b.n.toNat + 1 := by
      rw [BitVec.toNat_add]; simp; omega
    obtain ⟨a, n, f, h⟩ := ih left { b with n := b.n + 1, acc := accumulate b.acc y, first := latchFirst b.n b.first y } (v * 128 + (groupBits y).toNat)
      (fun z hz => hp z (by simp [hz])) (by omega)
      (by
        intro j hj
        have := hr (j + 1) (by omega)
        simp only [List.cons_append, List.getElem?_cons_succ] at this
        rw [this]
        simp only [hn1]
        congr 2; omega)
      (by simp only [hn1]; omega) (by simp only [hv, accumulate_ofNat])
    refine ⟨a, n, f, ?_⟩
    have hv2 : (v * 128 + (groupBits y).toNat) * 128 ^ (p.length + 1) + sdnvValue (p ++ [x]) =
        v * 128 ^ (p.length + 1 + 1) + sdnvValue (y :: (p ++ [x])) := by
      rw [sdnvValue_cons]; simp only [List.length_append, List.length_singleton, pow_succ]; ring
    have hc : b.n + 1 + BitVec.ofNat 8 (p.length + 1) = b.n + BitVec.ofNat 8 (p.length + 1 + 1) := by
      rw [BitVec.add_assoc]; congr 1; apply BitVec.eq_of_toNat_eq; simp; omega
    rw [decLegacyLoop]
    simp only [← h0, hp y (by simp), if_true, h, List.cons_append, List.length_cons, hv2, hc]
    rfl

/-- The loop of DEC LEGACY over bytes that are all flagged (40_codec_core.md R162). -/
theorem decLegacyLoop_fault (rd : Nat → Byte) (left : Nat) (b : Block) (hn : b.n.toNat + left ≤ 255)
    (hr : ∀ j, j < left → continues (rd (b.n.toNat + j)) = true) :
    ∃ acc n first, decLegacyLoop rd left b =
      { b.fault .boundsFault (b.n + BitVec.ofNat 8 left) with acc := acc, n := n, first := first } := by
  induction left generalizing b with
  | zero => exact ⟨b.acc, b.n, b.first, by simp [decLegacyLoop, Block.fault]⟩
  | succ left ih =>
    have h0 := hr 0 (by omega)
    have hn1 : (b.n + 1).toNat = b.n.toNat + 1 := by
      rw [BitVec.toNat_add]; simp; omega
    obtain ⟨a, n, f, h⟩ := ih { b with n := b.n + 1, acc := accumulate b.acc (rd b.n.toNat), first := latchFirst b.n b.first (rd b.n.toNat) }
      (by simp only [hn1]; omega)
      (by intro j hj; simp only [hn1]; rw [Nat.add_right_comm]; exact hr (j + 1) (by omega))
    have hc : b.n + 1 + BitVec.ofNat 8 left = b.n + BitVec.ofNat 8 (left + 1) := by
      rw [BitVec.add_assoc]; congr 1; apply BitVec.eq_of_toNat_eq; simp; omega
    refine ⟨a, n, f, ?_⟩
    rw [decLegacyLoop]
    simp only [Nat.add_zero] at h0
    simp only [h0, if_true, h, hc]
    rfl

/-- DEC LEGACY's loop changes only VALUE, COUNT, STATUS, `phase`, ACC, N and FIRST, and ends in one of its two ways. -/
theorem decLegacyLoop_cases (rd : Nat → Byte) (left : Nat) (b : Block) :
    ∃ acc n first k, (∃ v, decLegacyLoop rd left b = { { b with value := v }.finish .ok k with acc := acc, n := n, first := first }) ∨
      decLegacyLoop rd left b = { b.fault .boundsFault k with acc := acc, n := n, first := first } := by
  induction left generalizing b with
  | zero => exact ⟨b.acc, b.n, b.first, b.n, .inr rfl⟩
  | succ left ih =>
    by_cases hc : continues (rd b.n.toNat) = true
    · obtain ⟨a, n, f, k, h⟩ := ih { b with n := b.n + 1, acc := accumulate b.acc (rd b.n.toNat), first := latchFirst b.n b.first (rd b.n.toNat) }
      refine ⟨a, n, f, k, ?_⟩
      rcases h with ⟨v, h⟩ | h
      · exact .inl ⟨v, by rw [decLegacyLoop]; simp only [hc, if_true, h]; rfl⟩
      · exact .inr (by rw [decLegacyLoop]; simp only [hc, if_true, h]; rfl)
    · refine ⟨accumulate b.acc (rd b.n.toNat), b.n + 1, latchFirst b.n b.first (rd b.n.toNat), b.n + 1, .inl ⟨accumulate b.acc (rd b.n.toNat), ?_⟩⟩
      rw [decLegacyLoop]
      simp only [hc]
      rfl

end Sys2Proof.Machine
end

