-- ==== Sys2Proof/Laws/Memory.lean ====
section
/-! SUPPORT. Data by key: read after write, writes elsewhere, and that every operation keeps the canonical form. -/

namespace Sys2Proof.Machine

variable {α : Type}

@[simp] theorem assocGet_nil (i : Nat) : assocGet ([] : List (Nat × α)) i = none := rfl

@[simp] theorem assocGet_assocSet_same (m : List (Nat × α)) (i : Nat) (v : α) : assocGet (assocSet m i v) i = some v := by
  induction m with
  | nil => simp [assocSet, assocGet]
  | cons c m ih =>
    obtain ⟨k, w⟩ := c
    by_cases h1 : i < k
    · simp [assocSet, assocGet, h1]
    · by_cases h2 : i = k
      · simp [assocSet, assocGet, h2]
      · simp [assocSet, assocGet, h1, h2, ih]

theorem assocGet_assocSet_other (m : List (Nat × α)) (i j : Nat) (v : α) (h : j ≠ i) :
    assocGet (assocSet m i v) j = assocGet m j := by
  induction m with
  | nil => simp [assocSet, assocGet, h]
  | cons c m ih =>
    obtain ⟨k, w⟩ := c
    by_cases h1 : i < k
    · simp [assocSet, assocGet, h1, h]
    · by_cases h2 : i = k
      · subst h2; simp [assocSet, assocGet, h]
      · by_cases h3 : j = k
        · simp [assocSet, assocGet, h1, h2, h3]
        · simp [assocSet, assocGet, h1, h2, h3, ih]

/-- The keys after a write are the keys before it and the one written. -/
theorem mem_assocSet {m : List (Nat × α)} {i : Nat} {v : α} {c : Nat × α} (h : c ∈ assocSet m i v) :
    c = (i, v) ∨ c ∈ m := by
  induction m with
  | nil => simpa [assocSet] using h
  | cons d m ih =>
    obtain ⟨k, w⟩ := d
    unfold assocSet at h
    split at h
    · simpa using h
    · split at h
      · rcases List.mem_cons.1 h with rfl | h
        · exact .inl rfl
        · exact .inr (List.mem_cons_of_mem _ h)
      · rcases List.mem_cons.1 h with rfl | h
        · exact .inr (by simp)
        · rcases ih h with h | h
          · exact .inl h
          · exact .inr (List.mem_cons_of_mem _ h)

/-- A write keeps the keys strictly rising. -/
theorem assocSet_rising {m : List (Nat × α)} (hm : m.Pairwise fun a b => a.1 < b.1) (i : Nat) (v : α) :
    (assocSet m i v).Pairwise fun a b => a.1 < b.1 := by
  induction m with
  | nil => simp [assocSet]
  | cons d m ih =>
    obtain ⟨k, w⟩ := d
    obtain ⟨hk, hm'⟩ := List.pairwise_cons.1 hm
    unfold assocSet
    split
    · rename_i h
      refine List.pairwise_cons.2 ⟨?_, hm⟩
      intro c hc
      rcases List.mem_cons.1 hc with rfl | hc
      · exact h
      · exact Nat.lt_trans h (hk c hc)
    · split
      · rename_i h; subst h
        exact List.pairwise_cons.2 ⟨hk, hm'⟩
      · refine List.pairwise_cons.2 ⟨?_, ih hm'⟩
        intro c hc
        rcases mem_assocSet hc with rfl | hc
        · show k < i
          omega
        · exact hk c hc

/-! ## BUF -/

theorem Memory.wf_nil : Memory.wf [] := List.Pairwise.nil

theorem Memory.wf_set {m : Memory} (hm : m.wf) (i : Nat) (b : Byte) : Memory.wf (assocSet m i b) := assocSet_rising hm i b

theorem Memory.wf_writeFrom {m : Memory} (hm : m.wf) (i : Nat) (e : List Byte) : Memory.wf (m.writeFrom i e) := by
  induction e generalizing m i with
  | nil => exact hm
  | cons b e ih => exact ih (Memory.wf_set hm i b) (i + 1)

theorem Memory.mem_writeFrom {m : Memory} {i : Nat} {e : List Byte} {c : Host.Cell} (h : c ∈ m.writeFrom i e) :
    c ∈ m ∨ (i ≤ c.1 ∧ c.1 < i + e.length) := by
  induction e generalizing m i with
  | nil => exact .inl h
  | cons b e ih =>
    rcases ih h with h | h
    · rcases mem_assocSet h with rfl | h
      · exact .inr (by simp)
      · exact .inl h
    · exact .inr ⟨by omega, by simp only [List.length_cons]; omega⟩

theorem Memory.get_writeFrom_outside (m : Memory) (i : Nat) (e : List Byte) (j : Nat) (h : j < i ∨ i + e.length ≤ j) :
    assocGet (m.writeFrom i e) j = assocGet m j := by
  induction e generalizing m i with
  | nil => rfl
  | cons b e ih =>
    simp only [List.length_cons] at h
    have hj : j ≠ i := by omega
    rw [Memory.writeFrom, ih (assocSet m i b) (i + 1) (by omega), assocGet_assocSet_other _ _ _ _ hj]

theorem Memory.get_writeFrom_inside (m : Memory) (i : Nat) (e : List Byte) (j : Nat) (h : j < e.length) :
    assocGet (m.writeFrom i e) (i + j) = e[j]? := by
  induction e generalizing m i j with
  | nil => simp at h
  | cons b e ih =>
    cases j with
    | zero =>
      rw [Memory.writeFrom, Nat.add_zero, Memory.get_writeFrom_outside _ _ _ _ (by omega)]
      simp
    | succ j =>
      simp only [List.length_cons] at h
      have h2 := ih (assocSet m i b) (i + 1) j (by omega)
      rw [Memory.writeFrom, show i + (j + 1) = i + 1 + j by omega, h2]
      simp

theorem Memory.byteAt_of_get {m : Memory} {d i : Nat} {b : Byte} (h : assocGet m i = some b) : m.byteAt d i = b := by
  simp [Memory.byteAt, h]

theorem Memory.byteAt_congr {m m' : Memory} {i : Nat} (h : assocGet m' i = assocGet m i) (d : Nat) :
    m'.byteAt d i = m.byteAt d i := by simp [Memory.byteAt, h]

/-! ## The operations over BUF keep its canonical form -/

theorem State.reset_buf_wf : State.reset.blk.buf.wf := List.Pairwise.nil

theorem Block.bufWrite_wf {b : Block} (hb : b.buf.wf) (i : Byte) (v : Word) : (b.bufWrite i v).buf.wf := by
  unfold Block.bufWrite
  split
  · exact Memory.wf_set hb i.toNat (v.setWidth 8)
  · exact hb

end Sys2Proof.Machine
end

