-- ==== Sys2Proof/Laws/PerInstr.lean ====
section
/-! SUPPORT. Statements made of each command, one lemma a constructor (LAWS.json names the families). -/

/-- The command word of a command decodes to it, and its fields are a legal combination (30_encoding.md R120, R122, R123). -/
def Sys2Proof.Laws.Roundtrip.Statement (i : Sys2Proof.Instr) : Prop :=
  Sys2Proof.decode (Sys2Proof.encode i) = .ok i ∧ Sys2Proof.cmdRsvd (Sys2Proof.encode i) = 0 ∧
    (Sys2Proof.cmdWmode (Sys2Proof.encode i) = 1 → Sys2Proof.cmdOp (Sys2Proof.encode i) = 0b011)

theorem Sys2Proof.Laws.Roundtrip.enc : Sys2Proof.Laws.Roundtrip.Statement .enc := by
  unfold Sys2Proof.Laws.Roundtrip.Statement; decide

theorem Sys2Proof.Laws.Roundtrip.dec : Sys2Proof.Laws.Roundtrip.Statement .dec := by
  unfold Sys2Proof.Laws.Roundtrip.Statement; decide

theorem Sys2Proof.Laws.Roundtrip.wrb : Sys2Proof.Laws.Roundtrip.Statement .wrb := by
  unfold Sys2Proof.Laws.Roundtrip.Statement; decide

theorem Sys2Proof.Laws.Roundtrip.wrs : Sys2Proof.Laws.Roundtrip.Statement .wrs := by
  unfold Sys2Proof.Laws.Roundtrip.Statement; decide

theorem Sys2Proof.Laws.Roundtrip.rd : Sys2Proof.Laws.Roundtrip.Statement .rd := by
  unfold Sys2Proof.Laws.Roundtrip.Statement; decide
end

