-- ==== Sys2Proof/Laws/Run.lean ====
section
/-! SUPPORT. Runs of several steps, one step at a time; and `absorb` on the hidden registers of a running RD. -/

namespace Sys2Proof.Machine

/-! ## Runs -/

@[simp] theorem run_zero (s : State) : Sys2Proof.core.run 0 s = .next s := rfl

theorem run_succ (k : Nat) (s t : State) (h : Sys2Proof.Machine.step s = .next t) :
    Sys2Proof.core.run (k + 1) s = Sys2Proof.core.run k t := by
  have h' : Sys2Proof.core.step s = .next t := h
  simp only [Host.Core.run, h']

theorem run_one (s t : State) (h : Sys2Proof.Machine.step s = .next t) : Sys2Proof.core.run 1 s = .next t := by
  rw [run_succ 0 s t h]; rfl

theorem run_add (a b : Nat) (s t : State) (h : Sys2Proof.core.run a s = .next t) :
    Sys2Proof.core.run (a + b) s = Sys2Proof.core.run b t := by
  induction a generalizing s with
  | zero => cases h; simp
  | succ a ih =>
    rw [Nat.add_right_comm]
    simp only [Host.Core.run] at h ⊢
    cases hs : Sys2Proof.core.step s with
    | next s' => rw [hs] at h; exact ih s' h
    | fault r => rw [hs] at h; cases h
    | refused r => rw [hs] at h; cases h

/-! ## The hidden registers of a running RD (10_state.md R46 to R48) -/

theorem sdnvValue_lt_of_length (bs : List Byte) (h : bs.length ≤ 9) : sdnvValue bs < 2 ^ 64 := by
  calc sdnvValue bs < 128 ^ bs.length := sdnvValue_lt bs
    _ ≤ 128 ^ 9 := Nat.pow_le_pow_right (by omega) (by omega)
    _ < 2 ^ 64 := by norm_num

/-- Their contents, as functions of the bytes consumed. -/
theorem Block.Consumed.registers {b : Block} {bs : List Byte} (h : b.Consumed bs) :
    b.acc = BitVec.ofNat 64 (sdnvValue bs) ∧ b.n = BitVec.ofNat 8 bs.length ∧ (bs ≠ [] → b.first = firstAfter 0 bs) := by
  have hlt := b.acc.isLt
  have hl := h.length_le
  have hlen := h.length_eq
  refine ⟨?_, ?_, ?_⟩
  · rw [← h.acc_eq]; simp
  · rw [hlen]; simp
  · intro hne
    cases bs with
    | nil => exact absurd rfl hne
    | cons c bs => simpa [firstAfter] using h.first_eq c rfl

/-- What `absorb` gives on the next byte (40_codec_core.md R144 to R147). -/
theorem Block.Consumed.absorb_eq {b : Block} {bs : List Byte} (h : b.Consumed bs) (x : Byte) :
    absorb b.acc b.n b.first x =
      if bs.length = 9 ∧ (continues x = true ∨ firstAfter 0 (bs ++ [x]) ≠ 0x81) then .overflow
      else if continues x then
        .more (BitVec.ofNat 64 (sdnvValue (bs ++ [x]))) (BitVec.ofNat 8 (bs.length + 1)) (firstAfter 0 (bs ++ [x]))
      else .done (BitVec.ofNat 64 (sdnvValue (bs ++ [x]))) (BitVec.ofNat 8 (bs.length + 1)) := by
  obtain ⟨h1, h2, h3⟩ := h.registers
  rw [← absorb_after bs x h.length_le, h1, h2]
  cases bs with
  | nil => rw [Sys2Proof.Machine.absorb_eq, Sys2Proof.Machine.absorb_eq]; simp
  | cons c bs => rw [h3 (by simp)]

end Sys2Proof.Machine
end

