-- ==== Sys2Proof/Laws/Step.lean ====
section
/-! SUPPORT. What a step can do, said once: if it answers `next t`, then one of these cases holds. -/

namespace Sys2Proof.Machine

/-! ## Taking the move off the schedule changes nothing else -/

@[simp] theorem State.takeMove_cons (s : State) (m : Move) (ms : List Move) (h : s.sched = m :: ms) :
    s.takeMove = (m, { s with sched := ms }) := by simp [State.takeMove, h]

theorem State.takeMove_snd (s : State) : s.takeMove.2 = { s with sched := s.sched.tail } := by
  unfold State.takeMove
  cases h : s.sched with
  | nil => cases s; simp_all
  | cons m ms => rfl

/-! ## The core -/

/-- What exec answers, for each command (40_codec_core.md, 41_streaming.md). -/
theorem exec_cases {i : Instr} {s t : State} (h : exec i s = .next t) :
    match (generalizing := false) i with
    | .enc => t = { s with blk := s.blk.enc }
    | .dec => t = { s with blk := s.blk.dec s.bufReads, draws := s.draws + 1 }
    | .wrb => (s.bulk = [] ∧ t = s) ∨ ∃ a rest, s.bulk = a :: rest ∧ a.accepted ≤ s.blk.stageLen.toNat ∧
        t = { s with blk := s.blk.wrb a, bulk := rest, trace := s.trace ++ [.sinkBulk s.blk.staged a] }
    | .wrs => (s.sink = [] ∧ t = s) ∨ ∃ a rest, s.sink = a :: rest ∧
        t = { s with blk := s.blk.wrs a, sink := rest, trace := s.trace ++ [.sinkByte s.blk.stageByte a] }
    | .rd => (s.source = [] ∧ t = s) ∨ ∃ a rest, s.source = a :: rest ∧
        t = { s with blk := s.blk.rd a, source := rest, trace := s.trace ++ [.srcRead a] } := by
  cases i with
  | enc => simpa [exec, execEnc] using h.symm
  | dec => simpa [exec, execDec] using h.symm
  | wrb =>
    simp only [exec, execWrb] at h
    split at h
    · exact .inl ⟨‹_›, by simpa using h.symm⟩
    · split at h
      · exact .inr ⟨_, _, ‹_›, ‹_›, by simpa using h.symm⟩
      · cases h
  | wrs =>
    simp only [exec, execWrs] at h
    split at h
    · exact .inl ⟨‹_›, by simpa using h.symm⟩
    · exact .inr ⟨_, _, ‹_›, by simpa using h.symm⟩
  | rd =>
    simp only [exec, execRd] at h
    split at h
    · exact .inl ⟨‹_›, by simpa using h.symm⟩
    · exact .inr ⟨_, _, ‹_›, by simpa using h.symm⟩

/-- The core's move: nothing to run, or one step of the command in OPL. -/
theorem coreMove_cases {s t : State} (h : coreMove s = .next t) :
    (s.blk.phase.isRun = false ∧ t = s) ∨
      ∃ i, s.blk.phase.isRun = true ∧ decode (oplWord s.blk.opl) = .ok i ∧ exec i s = .next t := by
  unfold coreMove Block.fetch at h
  by_cases hr : s.blk.phase.isRun = true
  · rw [if_pos hr] at h
    cases hd : decode (oplWord s.blk.opl) with
    | error e => rw [hd] at h; cases h
    | ok i => rw [hd] at h; exact .inr ⟨i, hr, rfl, h⟩
  · rw [if_neg hr] at h
    exact .inl ⟨by simpa using hr, by simpa using h.symm⟩

/-- What an accepted command latches in OPL decodes to that command (10_state.md R45). -/
@[simp] theorem decode_oplWord_encode (i : Instr) : decode (oplWord (oplOf (encode i))) = .ok i := by cases i <;> rfl

/-- Under the invariant, the command the core runs is the one of its phase (10_state.md R31). -/
theorem Block.Inv.runs {b : Block} (hb : b.Inv) {i : Instr} (hr : b.phase.isRun = true)
    (hd : decode (oplWord b.opl) = .ok i) : b.phase = runPhase i := by
  obtain ⟨j, hj⟩ := exists_runPhase _ hr
  rw [hb.opl_latched j hj, decode_oplWord_encode] at hd
  cases hd
  exact hj

/-! ## Writing CMD -/

/-- A CMD write, in the order of 60_exceptions.md R266. -/
theorem Block.issue_cases (w : Byte) (b : Block) :
    (b.status.fault = true ∧ b.issue w = b) ∨
    (b.status.fault = false ∧ b.status.busy = true ∧ b.issue w = b) ∨
    (b.status.fault = false ∧ b.status.busy = false ∧ (∃ e, decode w = .error e) ∧ b.issue w = b.illegal) ∨
    (b.status.fault = false ∧ b.status.busy = false ∧ ∃ i, decode w = .ok i ∧ b.issue w = b.accept w i) := by
  unfold Block.issue
  cases hf : b.status.fault
  · cases hb : b.status.busy
    · cases hd : decode w with
      | error e => exact .inr (.inr (.inl ⟨rfl, rfl, ⟨e, rfl⟩, rfl⟩))
      | ok i => exact .inr (.inr (.inr ⟨rfl, rfl, i, rfl, rfl⟩))
    · exact .inr (.inl ⟨rfl, rfl, rfl⟩)
  · exact .inl ⟨rfl, rfl⟩

/-- A host register write: a CMD write, a VALUE or BUF_LEN write that lands, or nothing (10_state.md R52). -/
theorem Block.regWrite_cases (r : BitVec 4) (v : Word) (b : Block) :
    (r = 0 ∧ b.regWrite r v = b.issue (v.setWidth 8)) ∨
    (r = 2 ∧ b.status.busy = false ∧ b.regWrite r v = { b with value := v }) ∨
    (r = 4 ∧ b.status.busy = false ∧ b.regWrite r v = { b with bufLen := Params.clampLen b.cfg (v.setWidth 8) }) ∨
    (r ≠ 0 ∧ b.regWrite r v = b) := by
  have e : ∀ k, k < 16 → (r.toNat = k ↔ r = BitVec.ofNat 4 k) := by
    intro k hk
    constructor
    · rintro rfl; simp
    · rintro rfl; simp; omega
  unfold Block.regWrite
  split
  · rename_i h; exact .inl ⟨(e 0 (by omega)).1 h, rfl⟩
  · rename_i h
    have hr := (e 2 (by omega)).1 h
    split
    · exact .inr (.inr (.inr ⟨by rw [hr]; decide, rfl⟩))
    · rename_i hb; exact .inr (.inl ⟨hr, by simpa using hb, rfl⟩)
  · rename_i h
    have hr := (e 4 (by omega)).1 h
    split
    · exact .inr (.inr (.inr ⟨by rw [hr]; decide, rfl⟩))
    · rename_i hb; exact .inr (.inr (.inl ⟨hr, by simpa using hb, rfl⟩))
  · rename_i h0 h2 h4
    exact .inr (.inr (.inr ⟨fun h => h0 ((e 0 (by omega)).2 h), rfl⟩))

/-! ## The host -/

/-- One line of the host program, when it has a next state. -/
theorem hostOp_cases {op : HostOp} {s t : State} (h : hostOp op s = .next t) :
    (∃ r v, op = .write r v ∧
      t = { s with blk := s.blk.regWrite r v, host := s.host.advance, trace := s.trace ++ [.regWrite r v] }) ∨
    (∃ i v, op = .bufWrite i v ∧
      t = { s with blk := s.blk.bufWrite i v, host := s.host.advance, trace := s.trace ++ [.bufWrite i v] }) ∨
    (∃ r x, op = .read r x ∧ t = { s with host := s.host.assign x (s.blk.regRead r),
                                          trace := s.trace ++ [.regRead r (s.blk.regRead r)] }) ∨
    (∃ i x, op = .bufRead i x ∧ t = { s with host := s.host.assign x ((s.blk.bufRead s.draws i).setWidth 64),
                                             trace := s.trace ++ [.bufRead i (s.blk.bufRead s.draws i)],
                                             draws := s.draws + 1 }) ∨
    (∃ pc, (op = .blank ∨ ∃ x m l, op = .bz x m l) ∧ t = { s with host := { s.host with pc := pc } }) := by
  cases op with
  | write r v => exact .inl ⟨r, v, rfl, by simpa [hostOp] using h.symm⟩
  | bufWrite i v => exact .inr (.inl ⟨i, v, rfl, by simpa [hostOp] using h.symm⟩)
  | read r x => exact .inr (.inr (.inl ⟨r, x, rfl, by simpa [hostOp] using h.symm⟩))
  | bufRead i x => exact .inr (.inr (.inr (.inl ⟨i, x, rfl, by simpa [hostOp] using h.symm⟩)))
  | bz x m l =>
    have hop : (.bz x m l : HostOp) = .blank ∨ ∃ x' m' l', (.bz x m l : HostOp) = .bz x' m' l' := .inr ⟨x, m, l, rfl⟩
    simp only [hostOp] at h
    split at h
    · split at h
      · exact .inr (.inr (.inr (.inr ⟨_, hop, by simpa using h.symm⟩)))
      · cases h
    · exact .inr (.inr (.inr (.inr ⟨_, hop, by simpa [HostAgent.advance] using h.symm⟩)))
  | blank => exact .inr (.inr (.inr (.inr ⟨_, .inl rfl, by simpa [hostOp, HostAgent.advance] using h.symm⟩)))

/-- The host's move: its program has ended, or it runs the line it is at. -/
theorem hostMove_cases {s t : State} (h : hostMove s = .next t) :
    t = s ∨ ∃ line, s.host.prog[s.host.pc]? = some line ∧ hostOp line.op s = .next t := by
  unfold hostMove at h
  split at h
  · exact .inl (by simpa using h.symm)
  · exact .inr ⟨_, ‹_›, h⟩

/-! ## The machine -/

/-- A step is a move of the core, of the host, or reset (20_memory.md R80). -/
theorem step_cases {s t : State} (h : step s = .next t) :
    (s.takeMove.1 = .core ∧ coreMove { s with sched := s.sched.tail } = .next t) ∨
    (s.takeMove.1 = .host ∧ hostMove { s with sched := s.sched.tail } = .next t) ∨
    (s.takeMove.1 = .reset ∧ t = ({ s with sched := s.sched.tail } : State).assertReset) := by
  have hs := s.takeMove_snd
  unfold step at h
  split at h
  · rename_i s' he; rw [he] at hs; subst hs; exact .inl ⟨by rw [he], h⟩
  · rename_i s' he; rw [he] at hs; subst hs; exact .inr (.inl ⟨by rw [he], h⟩)
  · rename_i s' he; rw [he] at hs; subst hs; exact .inr (.inr ⟨by rw [he], by simpa using h.symm⟩)

/-- What a step can do to the block, and what it adds to the trace. -/
theorem step_blk_cases {s t : State} (h : step s = .next t) :
    (t.blk = s.blk ∧ (t.trace = s.trace ∨ (∃ r v, t.trace = s.trace ++ [.regRead r v]) ∨
      (∃ i b, t.trace = s.trace ++ [.bufRead i b]))) ∨
    (s.takeMove.1 = .core ∧ s.blk.phase.isRun = true ∧ ∃ i, decode (oplWord s.blk.opl) = .ok i ∧
      exec i { s with sched := s.sched.tail } = .next t) ∨
    (s.takeMove.1 = .host ∧ ∃ r v, t.blk = s.blk.regWrite r v ∧ t.trace = s.trace ++ [.regWrite r v]) ∨
    (s.takeMove.1 = .host ∧ ∃ i v, t.blk = s.blk.bufWrite i v ∧ t.trace = s.trace ++ [.bufWrite i v]) ∨
    (s.takeMove.1 = .reset ∧ t.blk = .reset s.blk.cfg ∧ t.trace = s.trace ++ [.reset]) := by
  rcases step_cases h with ⟨hm, h⟩ | ⟨hm, h⟩ | ⟨hm, rfl⟩
  · rcases coreMove_cases h with ⟨-, rfl⟩ | ⟨i, hr, hd, he⟩
    · exact .inl ⟨rfl, .inl rfl⟩
    · exact .inr (.inl ⟨hm, hr, i, hd, he⟩)
  · rcases hostMove_cases h with rfl | ⟨line, -, h⟩
    · exact .inl ⟨rfl, .inl rfl⟩
    · rcases hostOp_cases h with ⟨r, v, -, rfl⟩ | ⟨i, v, -, rfl⟩ | ⟨r, x, -, rfl⟩ | ⟨i, x, -, rfl⟩ | ⟨pc, -, rfl⟩
      · exact .inr (.inr (.inl ⟨hm, r, v, rfl, rfl⟩))
      · exact .inr (.inr (.inr (.inl ⟨hm, i, v, rfl, rfl⟩)))
      · exact .inl ⟨rfl, .inr (.inl ⟨r, _, rfl⟩)⟩
      · exact .inl ⟨rfl, .inr (.inr ⟨i, _, rfl⟩)⟩
      · exact .inl ⟨rfl, .inl rfl⟩
  · exact .inr (.inr (.inr (.inr ⟨hm, rfl, rfl⟩)))

/-! ## What the commands leave alone -/

theorem Block.enc_cases (b : Block) :
    b.enc = b.finish .bufferTooSmall 0 ∨
    (sdnvLen b.value.toNat ≤ b.bufLen.toNat ∧
      b.enc = { b with buf := b.buf.writeFrom 0 (sdnvEncode b.value.toNat) }.finish .ok (BitVec.ofNat 8 (sdnvLen b.value.toNat))) := by
  simp only [Block.enc]
  split
  · exact .inl rfl
  · exact .inr ⟨by omega, rfl⟩

/-- DEC ends with `finish`, or under LEGACY with `fault`, and changes ACC, N, FIRST and, with OK only, VALUE. -/
theorem Block.dec_cases (rd : Nat → Byte) (b : Block) :
    ∃ acc n first k,
      (∃ v, b.dec rd = { { b with value := v }.finish .ok k with acc := acc, n := n, first := first }) ∨
      (∃ c, c ≠ .ok ∧ b.cfg.policy = .checked ∧ (c = .overflow64 ∨ c = .endOfInput ∨ c = .unexpectedEndOfInput) ∧
        b.dec rd = { b.finish c k with acc := acc, n := n, first := first }) ∨
      (b.cfg.policy = .legacy ∧ b.dec rd = { b.fault .boundsFault k with acc := acc, n := n, first := first }) := by
  unfold Block.dec
  cases hp : b.cfg.policy with
  | checked =>
    obtain ⟨a, n, f, h⟩ := decChecked_eq rd b
    simp only [h]
    cases absorbSeq 0 0 0 ((List.range b.bufLen.toNat).map rd) with
    | overflow => exact ⟨a, n, f, 10, .inr (.inl ⟨.overflow64, by decide, trivial, .inl rfl, rfl⟩)⟩
    | done v k => exact ⟨a, n, f, k, .inl ⟨v, rfl⟩⟩
    | more v k g =>
      simp only [Block.endDecode]
      split
      · exact ⟨a, n, f, 0, .inr (.inl ⟨.endOfInput, by decide, trivial, .inr (.inl rfl), rfl⟩)⟩
      · exact ⟨a, n, f, k, .inr (.inl ⟨.unexpectedEndOfInput, by decide, trivial, .inr (.inr rfl), rfl⟩)⟩
  | legacy =>
    obtain ⟨a, n, f, k, h⟩ := decLegacyLoop_cases rd b.bufLen.toNat { b with acc := 0, n := 0, first := 0 }
    simp only [Block.decLegacy]
    rcases h with ⟨v, h⟩ | h
    · exact ⟨a, n, f, k, .inl ⟨v, by rw [h]; rfl⟩⟩
    · exact ⟨a, n, f, k, .inr (.inr ⟨trivial, by rw [h]; rfl⟩)⟩

/-- WRS on the block: it ends with IO_ERROR or OK, or goes on with N one higher. -/
theorem Block.wrs_cases (a : SinkResp) (b : Block) :
    (∃ e, a = .error e ∧ b.wrs a = b.finishIo e b.n) ∨
    (a = .ok ∧ b.n + 1 = b.stageLen.setWidth 8 ∧ b.wrs a = { b with n := b.n + 1 }.finish .ok (b.n + 1)) ∨
    (a = .ok ∧ b.n + 1 ≠ b.stageLen.setWidth 8 ∧ b.wrs a = { b with n := b.n + 1 }) := by
  cases a with
  | error e => exact .inl ⟨e, rfl, rfl⟩
  | ok =>
    by_cases h : b.n + 1 = b.stageLen.setWidth 8
    · exact .inr (.inl ⟨rfl, h, by simp only [Block.wrs]; rw [if_pos h]⟩)
    · exact .inr (.inr ⟨rfl, h, by simp only [Block.wrs]; rw [if_neg h]⟩)

/-- RD on the block: it ends in one of its five ways, or goes on. -/
theorem Block.rd_cases (a : SrcResp) (b : Block) :
    (a = .endOfInput ∧ b.n = 0 ∧ b.rd a = b.finish .endOfInput 0) ∨
    (a = .endOfInput ∧ b.n ≠ 0 ∧ b.rd a = b.finish .unexpectedEndOfInput b.n) ∨
    (∃ e, a = .error e ∧ b.rd a = b.finishIo e b.n) ∨
    (∃ x, a = .byte x ∧ absorb b.acc b.n b.first x = .overflow ∧ b.rd a = b.finish .overflow64 10) ∨
    (∃ x v k, a = .byte x ∧ absorb b.acc b.n b.first x = .done v k ∧ b.rd a = { b with value := v }.finish .ok k) ∨
    (∃ x v k f, a = .byte x ∧ absorb b.acc b.n b.first x = .more v k f ∧
      b.rd a = { b with acc := v, n := k, first := f }) := by
  cases a with
  | endOfInput =>
    by_cases h : b.n = 0
    · exact .inl ⟨rfl, h, by simp only [Block.rd]; rw [if_pos h]⟩
    · exact .inr (.inl ⟨rfl, h, by simp only [Block.rd]; rw [if_neg h]⟩)
  | error e => exact .inr (.inr (.inl ⟨e, rfl, rfl⟩))
  | byte x =>
    refine .inr (.inr (.inr ?_))
    cases h : absorb b.acc b.n b.first x with
    | overflow => exact .inl ⟨x, rfl, h, by simp only [Block.rd, h]; rfl⟩
    | done v k => exact .inr (.inl ⟨x, v, k, rfl, h, by simp only [Block.rd, h]⟩)
    | more v k f => exact .inr (.inr ⟨x, v, k, f, rfl, h, by simp only [Block.rd, h]⟩)

end Sys2Proof.Machine
end

