-- ==== Sys2Proof/Tests/Slice0.lean ====
section
/-! SUPPORT. Tests, their expected results taken from spec/95_test_vectors.md and the encodings of 30_encoding.md R120; and for each
obligation with hypotheses a state and operands that meet them. -/

open Sys2Proof Sys2Proof.Machine

namespace Sys2Proof.Tests

/-! ## Small states -/

/-- A block just reset, with BUF_LEN, VALUE and the first bytes of BUF as given. -/
def blockWith (p : Policy) (value : Word) (bufLen : Byte) (bytes : List Byte) : Block :=
  { Block.reset { bufMax := 16, policy := p } with value := value, bufLen := bufLen, buf := Memory.writeFrom [] 0 bytes }

/-- A machine around a block, with these port answers and schedule to come. -/
def machine (b : Block) (source : List SrcResp := []) (sink : List SinkResp := []) (bulk : List BulkResp := [])
    (sched : List Move := []) : State :=
  { State.reset with blk := b, source := source, sink := sink, bulk := bulk, sched := sched }

/-- The block after the host's CMD write of a command. -/
def issued (i : Instr) (b : Block) : Block := b.issue (encode i)

/-- What a test looks at: VALUE, COUNT, STATUS, IOERR and `phase` of a next state. -/
def seen (o : Host.Outcome State Fault Refusal) : Option (Word × Byte × Byte × BitVec 33 × Phase) :=
  match o with
  | .next t => some (t.blk.value, t.blk.count, t.blk.status.word, t.blk.ioerr.word, t.blk.phase)
  | .fault _ => none
  | .refused _ => none

/-- BUF's written bytes in a next state. -/
def bufOf (o : Host.Outcome State Fault Refusal) : Option Memory :=
  match o with
  | .next t => some t.blk.buf
  | .fault _ => none
  | .refused _ => none

/-! ## Decoding: words written out from R120 (RSVD, WMODE, OP) -/

theorem test_decode_enc : decode 0b0000_0_001 = .ok .enc := by decide
theorem test_decode_dec : decode 0b0000_0_010 = .ok .dec := by decide
theorem test_decode_wrb : decode 0b0000_0_011 = .ok .wrb := by decide
theorem test_decode_wrs : decode 0b0000_1_011 = .ok .wrs := by decide
theorem test_decode_rd : decode 0b0000_0_100 = .ok .rd := by decide
/-- Vectors A1 to A3 (OP unassigned). -/
theorem test_decode_op_unassigned : (decode 0b0000_0_000 = .error .opUnassigned ∧ decode 0b0000_0_101 = .error .opUnassigned) ∧
    decode 0b0000_0_110 = .error .opUnassigned ∧ decode 0b0000_0_111 = .error .opUnassigned := by decide
/-- Vectors A4, A5. -/
theorem test_decode_wmode : decode 0b0000_1_000 = .error .wmodeWithoutWrite ∧ decode 0b0000_1_001 = .error .wmodeWithoutWrite ∧
    decode 0b0000_1_100 = .error .wmodeWithoutWrite := by decide
/-- Vector A6. -/
theorem test_decode_rsvd : decode 0x11 = .error .reservedNonzero ∧ decode 0x81 = .error .reservedNonzero ∧
    decode 0xFF = .error .reservedNonzero := by decide
theorem test_table_words : decodeTableWord 8 0x0B = some .wrs ∧ decodeTableWord 8 0x0A = none ∧ decodeTableWord 8 0x101 = none := by
  decide

/-! ## WellFormed refuses ill-formed terms -/

theorem test_wf_bufMax : Params.wf { bufMax := 9, policy := .checked } = false ∧
    Params.wf { bufMax := 10, policy := .checked } = true := by decide
theorem test_wf_undefined_label : progWf [⟨[.user 1], .bz 0 0x02 (.user 2)⟩] = false ∧
    progWf [⟨[.user 1], .bz 0 0x02 (.user 1)⟩] = true := by decide
theorem test_wf_label_twice : progWf [⟨[.user 1], .blank⟩, ⟨[.user 1], .blank⟩] = false := by decide
theorem test_wf_bws : SrcOp.wf (.bws 0 []) = false ∧ SrcOp.wf (.bws 255 [1, 2]) = false ∧ SrcOp.wf (.bws 254 [1, 2]) = true := by
  decide
theorem test_wf_instr : Instr.wf .wrs = true := by decide

/-! ## Commands (vectors of 95_test_vectors.md part 2) -/

/-- E11. -/
theorem test_enc : seen (exec .enc (machine (issued .enc (blockWith .checked 0xabc 16 [1, 2, 3, 4])))) =
      some (0xabc, 2, 0x02, 0, .idle) ∧
    bufOf (exec .enc (machine (issued .enc (blockWith .checked 0xabc 16 [1, 2, 3, 4])))) =
      some [(0, 0x95), (1, 0x3c), (2, 3), (3, 4)] := by decide
/-- E6. -/
theorem test_enc_too_small : seen (exec .enc (machine (issued .enc (blockWith .checked 0x4234 2 [0x11, 0x22, 0x33])))) =
      some (0x4234, 0, 0x12, 0, .idle) ∧
    bufOf (exec .enc (machine (issued .enc (blockWith .checked 0x4234 2 [0x11, 0x22, 0x33])))) =
      some [(0, 0x11), (1, 0x22), (2, 0x33)] := by decide
/-- DC11. -/
theorem test_dec_checked : seen (exec .dec (machine (issued .dec (blockWith .checked 0x5555 10
    [0x80, 0xff, 0xff, 0xff, 0xff, 0xff, 0xff, 0xff, 0xff, 0x7f])))) = some (0x5555, 10, 0x22, 0, .idle) := by decide
/-- DL11; and the bytes of DL13 with FIRST 0xaa before, of which LEGACY latches the first (R48). -/
theorem test_dec_legacy : seen (exec .dec (machine (issued .dec (blockWith .legacy 0x5555 11
    [0x82, 0x80, 0x80, 0x80, 0x80, 0x80, 0x80, 0x80, 0x80, 0x80, 0x01])))) = some (1, 11, 0x02, 0, .idle) ∧
    ({ blockWith .legacy 0x5555 2 [] with first := 0xaa }.dec fun j => [(0x80 : Byte), 0x01].getD j 0).first = 0x80 := by decide
/-- WB6: a short write passed through as OK. -/
theorem test_wrb : seen (exec .wrb (machine (issued .wrb (blockWith .checked 0x4234 0 [])) (bulk := [⟨1, .ok⟩]))) =
    some (0x4234, 1, 0x02, 0, .idle) := by decide
/-- WB4. -/
theorem test_wrb_error : seen (exec .wrb (machine (issued .wrb (blockWith .checked 0xffffffffffffffff 0 []))
    (bulk := [⟨3, .error 0x2a⟩]))) = some (0xffffffffffffffff, 3, 0x52, 0x1_0000_002a, .idle) := by decide
/-- WS2, first of two bytes: 0x95 is sent, and WRS goes on. -/
theorem test_wrs : (match exec .wrs (machine (issued .wrs (blockWith .checked 0xabc 0 [])) (sink := [.ok, .ok])) with
    | .next t => decide (t.trace = [.sinkByte 0x95 .ok] ∧ t.blk.phase = .runWrs ∧ t.blk.status.word = 0x01 ∧ t.blk.n = 1)
    | .fault _ => false
    | .refused _ => false) = true := by decide
/-- WS5. -/
theorem test_wrs_error : seen (exec .wrs (machine (issued .wrs (blockWith .checked 0x4234 0 [])) (sink := [.error 0x1]))) =
    some (0x4234, 0, 0x52, 0x1_0000_0001, .idle) := by decide

/-- A block in which RD has consumed `n` bytes: ACC, N and FIRST as given. -/
def reading (acc : Word) (n first : Byte) : Block :=
  { issued .rd (blockWith .checked 0x5555 0 []) with acc := acc, n := n, first := first }

/-- RD5, the last of ten bytes. -/
theorem test_rd_last : seen (exec .rd (machine (reading 0x1ffffffffffffff 9 0x81) (source := [.byte 0x7f]))) =
    some (0xffffffffffffffff, 10, 0x02, 0, .idle) := by decide
/-- RD12, the `End`: 9 bytes 0xff consumed. -/
theorem test_rd_truncated : seen (exec .rd (machine (reading 0x7fffffffffffffff 9 0xff) (source := [.endOfInput]))) =
    some (0x5555, 9, 0x42, 0, .idle) := by decide

/-! ## The host's accesses (vectors A1 to A10, G1 to G12) -/

/-- A1, A7, A9. -/
theorem test_issue : (Block.issue 0x00 (.reset .default)).status.word = 0x62 ∧
    (Block.issue 0x0B (.reset .default)).status.word = 0x01 ∧
    (Block.issue 0x00 { Block.reset .default with phase := .faulted, status := .faulted .boundsFault }).status.word = 0x76 := by
  decide
/-- G2, G3, G4. -/
theorem test_config : (Block.reset { bufMax := 16, policy := .checked }).regRead 6 = 0x100A ∧
    (Block.reset { bufMax := 16, policy := .legacy }).regRead 6 = 0x101A ∧
    (Block.reset { bufMax := 255, policy := .checked }).regRead 6 = 0xFF0A := by decide
/-- G5 to G8. -/
theorem test_bufLen : ((Block.reset .default).regWrite 4 5).regRead 4 = 5 ∧ ((Block.reset .default).regWrite 4 200).regRead 4 = 16 ∧
    ((Block.reset .default).regWrite 4 0x105).regRead 4 = 5 ∧ ((Block.reset .default).regWrite 4 0x12c).regRead 4 = 16 := by decide
/-- G12. -/
theorem test_bufMax : ((Block.reset .default).bufWrite 20 0x55).bufRead 0 20 = 0 := by decide

/-! ## Steps -/

theorem test_fetch_enc : step (State.reset.withFetchWord 8 0x01) =
    exec .enc { State.reset.withFetchWord 8 0x01 with sched := [] } := rfl
theorem test_fetch_rd : step (State.reset.withFetchWord 8 0x04) =
    exec .rd { State.reset.withFetchWord 8 0x04 with sched := [] } := rfl
/-- An illegal word runs in the host's CMD write: STATUS 0x62 (A2). -/
theorem test_fetch_illegal : seen (step (State.reset.withFetchWord 8 0x05)) = some (0, 0, 0x62, 0, .idle) := by decide
/-- G15, and program P5's last note. -/
theorem test_reset_leaves_faulted : seen (step (machine { Block.reset .default with
    phase := .faulted, status := .faulted .boundsFault, value := 0x80, count := 2 } (sched := [.reset]))) =
    some (0, 0, 0x00, 0, .idle) := by decide
theorem test_wait_expands : assemble [⟨none, .wait 3⟩] =
    [⟨[.fresh 0], .read 1 3⟩, ⟨[], .bz 3 0x02 (.fresh 0)⟩] := by decide

/-! ## Witnesses: states and operands that meet the hypotheses of the obligations -/

/-- The invariant of a concrete block, from its decidable clauses and the two that are not decided by evaluation. -/
theorem inv_of (b : Block)
    (h : b.cfg.wf = true ∧ b.bufLen ≤ b.cfg.bufMax ∧ Memory.wf b.buf ∧ (∀ c ∈ b.buf, c.1 < b.cfg.bufMax.toNat) ∧
      b.status.busy = b.phase.isRun ∧ (b.status.busy = true → b.status.done = false) ∧
      (b.status.fault = true ↔ b.phase = .faulted) ∧
      (b.status.busy = true → b.status.err = .ok ∧ b.count = 0 ∧ b.ioerr = .none) ∧
      (b.ioerr.valid = false → b.ioerr.code = 0) ∧ (b.ioerr.valid = true ↔ b.status.err = .ioError))
    (h' : (b.phase = .faulted → b.cfg.policy = .legacy ∧ b.status.err = .boundsFault ∧ b.status.done = true) ∧
      b.count ≤ b.cfg.bufMax ∧ (b.cfg.policy = .checked → b.count.toNat ≤ 10) ∧
      (b.phase = .runWrb ∨ b.phase = .runWrs → b.staged = sdnvEncode b.value.toNat ∧ b.stageLen.toNat = sdnvLen b.value.toNat) ∧
      (b.phase = .runWrs → b.n.toNat < b.stageLen.toNat))
    (hopl : ∀ i, b.phase = runPhase i → b.opl = oplOf (encode i))
    (hrd : b.phase = .runRd → ∃ bs, b.Consumed bs) : b.Inv := by
  obtain ⟨h1, h2, h3, h4, h5, h6, h7, h8, h9, h10⟩ := h
  obtain ⟨h11, h12, h13, h14, h15⟩ := h'
  exact ⟨h1, h2, h3, h4, h5, h6, h7, h8, hopl, h9, h10, h11, h12, h13, h14, h15, hrd⟩

/-- The blocks the witnesses use: 0x4234 in VALUE, its encoding in BUF, BUF_LEN 3, and command `i` accepted. -/
def running (p : Policy) (i : Instr) : Block := issued i (blockWith p 0x4234 3 [0x81, 0x84, 0x34])

theorem running_inv (p : Policy) (i : Instr) : (running p i).Inv := by
  cases p <;> cases i <;>
    exact inv_of _ (by decide) (by decide) (by intro j; cases j <;> decide)
      (fun h => by first
        | exact absurd h (by decide)
        | exact ⟨[], rfl, by decide, by decide, rfl, by decide⟩)

theorem running_stateInv (p : Policy) (i : Instr) (source : List SrcResp) (sink : List SinkResp) (bulk : List BulkResp)
    (sched : List Move) : (machine (running p i) source sink bulk sched).Inv := ⟨running_inv p i, List.Pairwise.nil⟩

/-- A block that has completed an ENC with OK. -/
def completed : Block := (running .checked .enc).enc

theorem completed_inv : completed.Inv :=
  inv_of _ (by decide) (by decide) (by intro j; cases j <;> decide) (fun h => absurd h (by decide))

/-- A block in FAULTED (vector DL4). -/
def stuck : Block := (issued .dec (blockWith .legacy 0x5555 2 [0xff, 0xff])).dec fun _ => 0xff

theorem stuck_inv : stuck.Inv :=
  inv_of _ (by decide) (by decide) (by intro j; cases j <;> decide) (fun h => absurd h (by decide))

/-- A block in which RD has consumed 0x95 (source of vector RD3). -/
def readingOne : Block := (issued .rd (blockWith .checked 0x5555 0 [])).rd (.byte 0x95)

theorem readingOne_inv : readingOne.Inv :=
  inv_of _ (by decide) (by decide) (by intro j; cases j <;> decide)
    (fun _ => ⟨[0x95], rfl, by decide, by decide, rfl, fun x h => by cases h; rfl⟩)

/-- A block in which WRS has one byte of 0xabc left to send (vector WS2). -/
def sendingLast : Block := (issued .wrs (blockWith .checked 0xabc 0 [])).wrs .ok

theorem sendingLast_inv : sendingLast.Inv :=
  inv_of _ (by decide) (by decide) (by intro j; cases j <;> decide) (fun h => absurd h (by decide))

theorem witness_DecodeEncodeAgree : Instr.wrs.wf = true ∧ decode 0x0B = .ok .wrs := by decide
theorem witness_IllegalWordsAre : ∃ (b : Block) (e : DecodeError), b.status.fault = false ∧ b.status.busy = false ∧
    decode 0x0A = .error e := ⟨.reset .default, .wmodeWithoutWrite, by decide⟩
/-- Both ends of the ranges of lengths 1, 2, 9 and 10 (R105). -/
theorem witness_LengthByRange : sdnvLen 0 = 1 ∧ sdnvLen 0x7f = 1 ∧ sdnvLen 0x80 = 2 ∧ sdnvLen 0x3fff = 2 ∧
    sdnvLen 0x100000000000000 = 9 ∧ sdnvLen 0x7fffffffffffffff = 9 ∧ sdnvLen 0x8000000000000000 = 10 ∧
    sdnvLen 0xffffffffffffffff = 10 := by decide
/-- Vectors S1, S5, S6: first, middle and last wire positions. -/
theorem witness_EncodingIsCanonical : sdnvEncode 0 = [0x00] ∧ sdnvEncode 0x4234 = [0x81, 0x84, 0x34] ∧
    sdnvEncode 0xffffffffffffffff = [0x81, 0xff, 0xff, 0xff, 0xff, 0xff, 0xff, 0xff, 0xff, 0x7f] := by decide
theorem witness_LeadingZeroGroupsKeepValue : isComplete [0x01] = true ∧ sdnvValue [0x80, 0x01] = 1 := by decide
/-- First bytes on both sides of the limit (0x81, 0x82), and the least value of ten bytes. -/
theorem witness_TenByteSequences :
    (isComplete [0x81, 0xff, 0xff, 0xff, 0xff, 0xff, 0xff, 0xff, 0xff, 0x7f] = true ∧
      sdnvValue [0x81, 0xff, 0xff, 0xff, 0xff, 0xff, 0xff, 0xff, 0xff, 0x7f] = 2 ^ 64 - 1) ∧
    (isComplete [0x82, 0x80, 0x80, 0x80, 0x80, 0x80, 0x80, 0x80, 0x80, 0x00] = true ∧
      sdnvValue [0x82, 0x80, 0x80, 0x80, 0x80, 0x80, 0x80, 0x80, 0x80, 0x00] = 2 ^ 64) ∧
    sdnvLen (2 ^ 63) = 10 := by decide
theorem witness_AbsorbOverflowsExactly : (9 : Byte).toNat ≤ 9 ∧ absorb 0 9 0x80 0x01 = .overflow ∧ absorb 0 9 0x81 0x81 = .overflow ∧
    absorb 0 9 0x81 0x01 ≠ .overflow ∧ absorb 0 8 0x80 0x81 ≠ .overflow := by decide
theorem witness_DoneValueIsSequenceValue : absorbSeq 0 0 0 [0x81, 0x84, 0x34, 0xff] = .done 0x4234 3 := by decide

/-- Exactly enough capacity (E5). -/
theorem witness_EncWritesEncoding : ∃ s : State, sdnvLen s.blk.value.toNat = s.blk.bufLen.toNat :=
  ⟨machine (running .checked .enc), by decide⟩
/-- One byte short (E6), and a capacity of 10. -/
theorem witness_EncTooSmallExactly : (∃ s : State, s.blk.bufLen.toNat + 1 = sdnvLen s.blk.value.toNat) ∧
    ∃ s : State, s.blk.bufLen.toNat = 10 :=
  ⟨⟨machine (blockWith .checked 0x4234 2 []), by decide⟩, ⟨machine (blockWith .checked 0 10 []), by decide⟩⟩
/-- Ten bytes, the first 0x81 (DC8). -/
theorem witness_DecCheckedAccepts : ∃ (s : State) (bs : List Byte), s.blk.cfg.policy = .checked ∧ accepted bs = true ∧
    bs.length ≤ s.blk.bufLen.toNat ∧ BufHolds s bs :=
  ⟨machine (blockWith .checked 0x5555 10 [0x81, 0xff, 0xff, 0xff, 0xff, 0xff, 0xff, 0xff, 0xff, 0x7f]),
    [0x81, 0xff, 0xff, 0xff, 0xff, 0xff, 0xff, 0xff, 0xff, 0x7f], rfl, by decide, by decide, by unfold BufHolds; decide⟩
/-- By the first byte (DC12). -/
theorem witness_DecCheckedOverflows : ∃ (s : State) (bs : List Byte), s.blk.cfg.policy = .checked ∧ overflows bs = true ∧
    10 ≤ s.blk.bufLen.toNat ∧ BufHolds s bs :=
  ⟨machine (blockWith .checked 0x5555 10 [0x80, 0x80, 0x80, 0x80, 0x80, 0x80, 0x80, 0x80, 0x80, 0x01]),
    [0x80, 0x80, 0x80, 0x80, 0x80, 0x80, 0x80, 0x80, 0x80, 0x01], rfl, by decide, by decide, by unfold BufHolds; decide⟩
/-- By the flag of the 10th byte (DC14). -/
theorem witness_DecCheckedOverflows_flag : ∃ (s : State) (bs : List Byte), s.blk.cfg.policy = .checked ∧ overflows bs = true ∧
    10 ≤ s.blk.bufLen.toNat ∧ BufHolds s bs :=
  ⟨machine (blockWith .checked 0x5555 12 [0xff, 0xff, 0xff, 0xff, 0xff, 0xff, 0xff, 0xff, 0xff, 0xff, 0xff, 0xff]),
    [0xff, 0xff, 0xff, 0xff, 0xff, 0xff, 0xff, 0xff, 0xff, 0xff], rfl, by decide, by decide, by unfold BufHolds; decide⟩
/-- An empty buffer (DC1). -/
theorem witness_DecCheckedEndOfBuffer : ∃ (s : State) (bs : List Byte), s.blk.cfg.policy = .checked ∧
    bs.length = s.blk.bufLen.toNat ∧ bs.length ≤ 9 ∧ (∀ b ∈ bs, continues b = true) ∧ BufHolds s bs ∧ bs = [] :=
  ⟨machine (blockWith .checked 0x5555 0 []), [], rfl, rfl, by decide, by decide, by unfold BufHolds; decide, rfl⟩
/-- Nine flagged bytes (DC15). -/
theorem witness_DecCheckedEndOfBuffer_nine : ∃ (s : State) (bs : List Byte), s.blk.cfg.policy = .checked ∧
    bs.length = s.blk.bufLen.toNat ∧ bs.length = 9 ∧ (∀ b ∈ bs, continues b = true) ∧ BufHolds s bs ∧ bs ≠ [] :=
  ⟨machine (blockWith .checked 0x5555 9 [0xff, 0xff, 0xff, 0xff, 0xff, 0xff, 0xff, 0xff, 0xff]),
    [0xff, 0xff, 0xff, 0xff, 0xff, 0xff, 0xff, 0xff, 0xff], rfl, rfl, rfl, by decide, by unfold BufHolds; decide, by decide⟩
theorem witness_DecCheckedCompletes : (machine (running .checked .dec)).blk.cfg.policy = .checked := rfl
/-- Eleven bytes, more than 64 bits of value (DL11). -/
theorem witness_DecLegacyWraps : ∃ (s : State) (bs : List Byte), s.blk.cfg.policy = .legacy ∧ isComplete bs = true ∧
    bs.length ≤ s.blk.bufLen.toNat ∧ BufHolds s bs :=
  ⟨machine (blockWith .legacy 0x5555 11 [0x82, 0x80, 0x80, 0x80, 0x80, 0x80, 0x80, 0x80, 0x80, 0x80, 0x01]),
    [0x82, 0x80, 0x80, 0x80, 0x80, 0x80, 0x80, 0x80, 0x80, 0x80, 0x01], rfl, by decide, by decide, by unfold BufHolds; decide⟩
/-- DL4. -/
theorem witness_DecLegacyFaults : ∃ (s : State) (bs : List Byte), s.blk.cfg.policy = .legacy ∧ bs.length = s.blk.bufLen.toNat ∧
    (∀ b ∈ bs, continues b = true) ∧ BufHolds s bs :=
  ⟨machine (blockWith .legacy 0x5555 2 [0xff, 0xff]), [0xff, 0xff], rfl, rfl, by decide, by unfold BufHolds; decide⟩
/-- DC3, DL3. -/
theorem witness_PoliciesAgree : ∃ (s : State) (bs : List Byte), accepted bs = true ∧ bs.length ≤ s.blk.bufLen.toNat ∧ BufHolds s bs :=
  ⟨machine (blockWith .legacy 0x5555 2 [0x95, 0x3c]), [0x95, 0x3c], by decide, by decide, by unfold BufHolds; decide⟩

/-- The whole sequence (k = m) and a short write with an error. -/
theorem witness_WrbPassesAnswerThrough : (∃ (s : State) (rest : List BulkResp), s.bulk = ⟨3, .ok⟩ :: rest ∧ 3 ≤ s.blk.stageLen.toNat) ∧
    ∃ (s : State) (rest : List BulkResp), s.bulk = ⟨0, .error 7⟩ :: rest ∧ 0 ≤ s.blk.stageLen.toNat :=
  ⟨⟨machine (running .checked .wrb) (bulk := [⟨3, .ok⟩]), [], rfl, by decide⟩,
    ⟨machine (running .checked .wrb) (bulk := [⟨0, .error 7⟩]), [], rfl, by decide⟩⟩
theorem witness_WrbSendsWholeEncoding : ∃ (s t : State) (a : BulkResp) (rest : List BulkResp), s.Inv ∧ s.blk.phase = .runWrb ∧
    s.bulk = a :: rest ∧ a.accepted ≤ sdnvLen s.blk.value.toNat ∧ coreMove s = .next t :=
  ⟨machine (running .checked .wrb) (bulk := [⟨3, .ok⟩]), _, ⟨3, .ok⟩, [], running_stateInv .checked .wrb [] [] [⟨3, .ok⟩] [], rfl, rfl,
    by decide, rfl⟩
theorem witness_WrbHasNoStepForLongAnswer : ∃ (s : State) (rest : List BulkResp), s.bulk = ⟨4, .ok⟩ :: rest ∧
    s.blk.stageLen.toNat < 4 := ⟨machine (running .checked .wrb) (bulk := [⟨4, .ok⟩]), [], rfl, by decide⟩
theorem witness_WrsStopsAtError : ∃ (s : State) (rest : List SinkResp), s.sink = .error 9 :: rest :=
  ⟨machine (running .checked .wrs) (sink := [.error 9]), [], rfl⟩
/-- A byte before the last. -/
theorem witness_WrsSendsNextByte : ∃ (s : State) (rest : List SinkResp), s.Inv ∧ s.blk.phase = .runWrs ∧ s.sink = .ok :: rest ∧
    s.blk.n.toNat + 1 < sdnvLen s.blk.value.toNat :=
  ⟨machine (running .checked .wrs) (sink := [.ok]), [], running_stateInv .checked .wrs [] [.ok] [] [], rfl, rfl, by decide⟩
/-- The last byte. -/
theorem witness_WrsSendsNextByte_last : ∃ (s : State) (rest : List SinkResp), s.Inv ∧ s.blk.phase = .runWrs ∧ s.sink = .ok :: rest ∧
    s.blk.n.toNat + 1 = sdnvLen s.blk.value.toNat :=
  ⟨machine sendingLast (sink := [.ok]), [], ⟨sendingLast_inv, List.Pairwise.nil⟩, by decide, rfl, by decide⟩
/-- N = 0 and N = 1. -/
theorem witness_RdTellsAbsenceFromTruncation :
    (∃ (s : State) (rest : List SrcResp), s.source = .endOfInput :: rest ∧ s.blk.n = 0) ∧
    ∃ (s : State) (rest : List SrcResp), s.source = .endOfInput :: rest ∧ s.blk.n = 1 ∧ s.Inv ∧ s.blk.phase = .runRd :=
  ⟨⟨machine (running .checked .rd) (source := [.endOfInput]), [], rfl, by decide⟩,
    ⟨machine readingOne (source := [.endOfInput]), [], rfl, by decide, ⟨readingOne_inv, List.Pairwise.nil⟩, by decide⟩⟩
theorem witness_RdPassesSourceErrorThrough : ∃ (s : State) (rest : List SrcResp), s.source = .error 0xe :: rest ∧ s.blk.n = 1 :=
  ⟨machine readingOne (source := [.error 0xe]), [], rfl, by decide⟩
/-- N = 9: overflow by flag, overflow by FIRST, and the accepted last byte; N = 8 flagged. -/
theorem witness_RdTakesOneByte :
    (∃ (s : State) (rest : List SrcResp), s.source = .byte 0xff :: rest ∧ s.blk.n = 9 ∧ continues 0xff = true) ∧
    (∃ (s : State) (rest : List SrcResp), s.source = .byte 0x7f :: rest ∧ s.blk.n = 9 ∧ s.blk.first ≠ 0x81 ∧ continues 0x7f = false) ∧
    (∃ (s : State) (rest : List SrcResp), s.source = .byte 0x7f :: rest ∧ s.blk.n = 9 ∧ s.blk.first = 0x81 ∧ continues 0x7f = false) ∧
    ∃ (s : State) (rest : List SrcResp), s.source = .byte 0xff :: rest ∧ s.blk.n = 8 ∧ continues 0xff = true :=
  ⟨⟨machine (reading 0 9 0x81) (source := [.byte 0xff]), [], rfl, rfl, by decide⟩,
    ⟨machine (reading 0 9 0xff) (source := [.byte 0x7f]), [], rfl, rfl, by decide, by decide⟩,
    ⟨machine (reading 0 9 0x81) (source := [.byte 0x7f]), [], rfl, rfl, rfl, by decide⟩,
    ⟨machine (reading 0 8 0x81) (source := [.byte 0xff]), [], rfl, rfl, by decide⟩⟩
/-- RD1: a running RD that ends. -/
theorem witness_RdOutcomes : ∃ s t : State, s.Inv ∧ s.blk.phase = .runRd ∧ coreMove s = .next t ∧ t.blk.phase ≠ .runRd :=
  ⟨machine (running .checked .rd) (source := [.endOfInput]), _, running_stateInv .checked .rd [.endOfInput] [] [] [], rfl, rfl,
    by decide⟩
/-- Each of the three ports, silent (WB7, WS7, RD15). -/
theorem witness_StreamsWaitForTheirPort :
    (∃ s : State, s.Inv ∧ s.blk.phase = .runRd ∧ s.source = []) ∧ (∃ s : State, s.Inv ∧ s.blk.phase = .runWrs ∧ s.sink = []) ∧
    ∃ s : State, s.Inv ∧ s.blk.phase = .runWrb ∧ s.bulk = [] :=
  ⟨⟨_, running_stateInv .checked .rd [] [] [] [], rfl, rfl⟩, ⟨_, running_stateInv .checked .wrs [] [] [] [], rfl, rfl⟩,
    ⟨_, running_stateInv .checked .wrb [] [] [] [], rfl, rfl⟩⟩
theorem witness_WrsSendsEncodingInOrder : ∃ (s : State) (ms : List Move) (rest : List SinkResp), s.Inv ∧ s.blk.phase = .runWrs ∧
    s.blk.n = 0 ∧ s.sched = List.replicate (sdnvLen s.blk.value.toNat) .core ++ ms ∧
    s.sink = List.replicate (sdnvLen s.blk.value.toNat) .ok ++ rest :=
  ⟨_, [], [], running_stateInv .checked .wrs [] [.ok, .ok, .ok] [] [.core, .core, .core], rfl, rfl, by decide, by decide⟩
/-- WS6: the error at the last byte, j = 2. -/
theorem witness_WrsPartialWrite : ∃ (s : State) (j : Nat) (e : IoErr) (ms : List Move) (rest : List SinkResp), s.Inv ∧
    s.blk.phase = .runWrs ∧ s.blk.n = 0 ∧ j < sdnvLen s.blk.value.toNat ∧ s.sched = List.replicate (j + 1) .core ++ ms ∧
    s.sink = List.replicate j .ok ++ .error e :: rest :=
  ⟨_, 2, 3, [], [], running_stateInv .checked .wrs [] [.ok, .ok, .error 3] [] [.core, .core, .core], rfl, rfl, by decide, by decide,
    by decide⟩
/-- RD3. -/
theorem witness_RdReadsOneRecord : ∃ (s : State) (bs : List Byte) (ms : List Move) (rest : List SrcResp), s.Inv ∧
    s.blk.phase = .runRd ∧ s.blk.n = 0 ∧ accepted bs = true ∧ s.source = bs.map .byte ++ rest ∧
    s.sched = List.replicate bs.length .core ++ ms :=
  ⟨_, [0x95, 0x3c], [], [.byte 0x00], running_stateInv .checked .rd [.byte 0x95, .byte 0x3c, .byte 0x00] [] [] [.core, .core], rfl,
    rfl, by decide, by decide, by decide⟩
/-- RD9. -/
theorem witness_RdOverflowConsumesTen : ∃ (s : State) (bs : List Byte) (ms : List Move) (rest : List SrcResp), s.Inv ∧
    s.blk.phase = .runRd ∧ s.blk.n = 0 ∧ overflows bs = true ∧ s.source = bs.map .byte ++ rest ∧
    s.sched = List.replicate 10 .core ++ ms :=
  ⟨_, List.replicate 9 0x80 ++ [0x01], [], [], running_stateInv .checked .rd (List.replicate 9 (.byte 0x80) ++ [.byte 0x01]) [] []
    (List.replicate 10 .core), rfl, rfl, by decide, by decide, by decide⟩
theorem witness_RdEndsWithinTenSteps : ∃ (s : State) (ms : List Move), s.Inv ∧ s.blk.phase = .runRd ∧ 10 ≤ s.source.length ∧
    s.sched = List.replicate 10 .core ++ ms :=
  ⟨_, [], running_stateInv .checked .rd (List.replicate 12 (.byte 0xff)) [] [] (List.replicate 10 .core), rfl, by decide, by decide⟩
/-- Program P1's ENC and DEC, the host at its CMD write of DEC. -/
theorem witness_EncThenDecRoundTrip : ∃ (s : State) (line : HostLine) (ms : List Move), s.Inv ∧ s.blk.phase = .runEnc ∧
    sdnvLen s.blk.value.toNat ≤ s.blk.bufLen.toNat ∧ s.host.prog[s.host.pc]? = some line ∧ line.op = .write 0 0x02 ∧
    s.sched = .core :: .host :: .core :: ms :=
  ⟨{ machine (running .legacy .enc) (sched := [.core, .host, .core]) with
      host := { prog := assemble [⟨none, .cmd .dec⟩], pc := 0, vars := [] } },
    ⟨[], .write 0 0x02⟩, [], ⟨running_inv .legacy .enc, List.Pairwise.nil⟩, rfl, by decide, rfl, rfl, rfl⟩

/-- One state for each clause: FAULT, BUSY, an illegal word, a command. -/
theorem witness_AcceptanceOrder : stuck.status.fault = true ∧ (running .checked .rd).status.busy = true ∧
    (completed.status.fault = false ∧ completed.status.busy = false) ∧
    decode ((0x10b : Word).setWidth 8) = .ok .wrs ∧ decode ((0x105 : Word).setWidth 8) = .error .opUnassigned := by decide
theorem witness_IllegalCommandCompletes : ∃ (s : State) (e : DecodeError), s.blk.status.fault = false ∧ s.blk.status.busy = false ∧
    decode ((0xFF : Word).setWidth 8) = .error e := ⟨machine completed, .reservedNonzero, by decide⟩
theorem witness_WritesWhileBusyIgnored : (running .checked .rd).status.busy = true := rfl
theorem witness_RegisterReads : 7 ≤ (7 : BitVec 4).toNat ∧ 7 ≤ (15 : BitVec 4).toNat := by decide
theorem witness_ConfigIsConstant : ∃ s t : State, step s = .next t := ⟨machine (running .checked .enc) (sched := [.core]), _, rfl⟩
theorem witness_BufLenIsWriteAnyReadLegal : (Block.reset .default).status.busy = false ∧ (running .checked .rd).status.busy = true ∧
    ∃ (i : Instr) (s t : State), exec i s = .next t := ⟨rfl, rfl, .enc, machine (running .checked .enc), _, rfl⟩
/-- The last index that exists, and the first that does not. -/
theorem witness_BufAccess : (15 : Byte) < (Block.reset .default).cfg.bufMax ∧ (Block.reset .default).cfg.bufMax ≤ 16 ∧
    (Block.reset .default).status.busy = false := by decide
theorem witness_RegisterWrites : (Block.reset .default).status.busy = false ∧ 7 ≤ (7 : BitVec 4).toNat ∧
    ((1 : BitVec 4) ≠ 0 ∧ (1 : BitVec 4) ≠ 2 ∧ (1 : BitVec 4) ≠ 4) := by decide
/-- Reset while RD runs (R302). -/
theorem witness_ResetEffect : ∃ (s : State) (ms : List Move), s.sched = .reset :: ms ∧ s.blk.phase = .runRd :=
  ⟨machine readingOne (sched := [.reset]), [], rfl, by decide⟩
/-- An unassigned variable, and another one beside it. -/
theorem witness_HostReadsHaveNoSideEffect_frame : (1 : Nat) ≠ 0 ∧ assocGet (machine completed).host.vars 1 = none := by decide
theorem witness_HostReadsHaveNoSideEffect : ∃ (s t : State) (op : HostOp), (∀ r v, op ≠ .write r v) ∧ (∀ i v, op ≠ .bufWrite i v) ∧
    hostOp op s = .next t := ⟨machine completed, _, .read 1 0, by simp, by simp, rfl⟩
/-- Taken, and not taken. -/
theorem witness_BranchOnZero : ∃ s : State, assocGet s.host.vars 0 = some 0x12 ∧ (0x12 : Word) &&& 0xF0 ≠ 0 ∧
    (0x12 : Word) &&& 0x00 = 0 ∧ findLabel s.host.prog (.user 1) = some 0 :=
  ⟨{ machine completed with host := { prog := [⟨[.user 1], .bz 0 0x00 (.user 1)⟩], pc := 0, vars := [(0, 0x12)] } }, by decide⟩
theorem witness_PseudoInstructionsExpand : SrcOp.wf (.bws 254 [1, 2]) = true ∧ [(1 : Byte), 2][1]? = some 2 := by decide
/-- A WAIT, once with DONE = 1 and once with DONE = 0. -/
theorem witness_WaitPollsStatus : ∀ b, b = completed ∨ b = running .checked .rd →
    ∃ (s : State) (x : Nat) (l : Label) (ls : List Label) (ms : List Move), s.blk = b ∧
      s.host.prog[s.host.pc]? = some ⟨ls, .read 1 x⟩ ∧ s.host.prog[s.host.pc + 1]? = some ⟨[], .bz x 0x02 l⟩ ∧
      findLabel s.host.prog l = some s.host.pc ∧ s.sched = .host :: .host :: ms :=
  fun b _ => ⟨{ machine b (sched := [.host, .host]) with host := { prog := assemble [⟨none, .wait 3⟩], pc := 0, vars := [] } },
    3, .fresh 0, [.fresh 0], [], rfl, rfl, rfl, rfl, rfl⟩

theorem witness_StepRunsLatchedCommand : ∃ (s : State) (i : Instr), s.Inv ∧ s.blk.phase = runPhase i ∧ s.takeMove.1 = .core :=
  ⟨_, .wrs, running_stateInv .checked .wrs [] [.ok] [] [], rfl, rfl⟩
theorem witness_InvAtReset : Params.wf { bufMax := 10, policy := .legacy } = true ∧ Params.wf { bufMax := 255, policy := .checked } = true := by
  decide
theorem witness_StepKeepsInv : ∃ s t : State, s.Inv ∧ step s = .next t :=
  ⟨_, _, running_stateInv .legacy .dec [] [] [] [.core], rfl⟩
/-- A running WRB with a full answer, and a host program with a branch. -/
theorem witness_MachineProceeds : ∃ s : State, s.Inv ∧ s.BulkDuty ∧ progWf s.host.prog = true ∧ s.blk.phase = .runWrb :=
  ⟨{ machine (running .checked .wrb) (bulk := [⟨3, .ok⟩]) with
      host := { prog := assemble [⟨none, .wait 3⟩], pc := 0, vars := [] } },
    ⟨running_inv .checked .wrb, List.Pairwise.nil⟩, by intro _ a h; cases h; decide, by decide, rfl⟩
/-- The step that sets FAULT, and the one that clears it. -/
theorem witness_FaultIsSticky :
    (∃ s t : State, step s = .next t ∧ s.blk.status.fault = false ∧ t.blk.status.fault = true) ∧
    ∃ s t : State, step s = .next t ∧ s.blk.status.fault = true ∧ t.blk.status.fault = false :=
  ⟨⟨machine (issued .dec (blockWith .legacy 0 0 [])) (sched := [.core]), _, rfl, by decide, by decide⟩,
    ⟨machine stuck (sched := [.reset]), _, rfl, by decide, by decide⟩⟩
/-- A step in FAULTED, and the reset that leaves it. -/
theorem witness_FaultedUntilReset :
    (∃ s t : State, s.Inv ∧ s.blk.phase = .faulted ∧ step s = .next t ∧ s.takeMove.1 ≠ .reset) ∧
    (∃ s t : State, s.Inv ∧ s.blk.phase = .faulted ∧ step s = .next t ∧ s.takeMove.1 = .reset) ∧ 15 < stuck.cfg.bufMax :=
  ⟨⟨machine stuck (sched := [.core]), _, ⟨stuck_inv, List.Pairwise.nil⟩, by decide, rfl, by decide⟩,
    ⟨machine stuck (sched := [.reset]), _, ⟨stuck_inv, List.Pairwise.nil⟩, by decide, rfl, by decide⟩, by decide⟩
/-- Acceptance sets BUSY, a completion clears it, reset clears it. -/
theorem witness_BusyExactlyWhileRunning :
    (∃ s t : State, s.Inv ∧ step s = .next t ∧ s.blk.status.busy = false ∧ t.blk.status.busy = true) ∧
    (∃ s t : State, s.Inv ∧ step s = .next t ∧ s.blk.status.busy = true ∧ t.blk.status.busy = false ∧ s.takeMove.1 = .core) ∧
    ∃ s t : State, s.Inv ∧ step s = .next t ∧ s.blk.status.busy = true ∧ t.blk.status.busy = false ∧ s.takeMove.1 = .reset :=
  ⟨⟨{ machine completed (sched := [.host]) with host := { prog := assemble [⟨none, .cmd .rd⟩], pc := 0, vars := [] } }, _,
      ⟨completed_inv, List.Pairwise.nil⟩, rfl, by decide, by decide⟩,
    ⟨_, _, running_stateInv .checked .enc [] [] [] [.core], rfl, by decide, by decide, rfl⟩,
    ⟨_, _, running_stateInv .checked .rd [] [] [] [.reset], rfl, by decide, by decide, rfl⟩⟩
/-- The host's write, a DEC, and reset. -/
theorem witness_WhoWritesValue :
    (∃ s t : State, s.Inv ∧ step s = .next t ∧ t.blk.value ≠ s.blk.value ∧ s.takeMove.1 = .host) ∧
    (∃ s t : State, s.Inv ∧ step s = .next t ∧ t.blk.value ≠ s.blk.value ∧ s.takeMove.1 = .core) ∧
    ∃ s t : State, s.Inv ∧ step s = .next t ∧ t.blk.value ≠ s.blk.value ∧ s.takeMove.1 = .reset :=
  ⟨⟨{ machine completed (sched := [.host]) with host := { prog := [⟨[], .write 2 7⟩], pc := 0, vars := [] } }, _,
      ⟨completed_inv, List.Pairwise.nil⟩, rfl, by decide, rfl⟩,
    ⟨{ machine { readingOne with value := 1 } (source := [.byte 0x3c]) (sched := [.core]) with trace := [] }, _,
      ⟨inv_of _ (by decide) (by decide) (by intro j; cases j <;> decide)
        (fun _ => ⟨[0x95], rfl, by decide, by decide, rfl, fun x h => by cases h; rfl⟩), List.Pairwise.nil⟩, rfl, by decide, rfl⟩,
    ⟨_, _, running_stateInv .checked .rd [] [] [] [.reset], rfl, by decide, rfl⟩⟩
/-- The host's write, an ENC, and reset. -/
theorem witness_WhoWritesBuf :
    (∃ s t : State, s.Inv ∧ step s = .next t ∧ t.blk.buf ≠ s.blk.buf ∧ s.takeMove.1 = .host) ∧
    (∃ s t : State, s.Inv ∧ step s = .next t ∧ t.blk.buf ≠ s.blk.buf ∧ s.takeMove.1 = .core) ∧
    ∃ s t : State, s.Inv ∧ step s = .next t ∧ t.blk.buf ≠ s.blk.buf ∧ s.takeMove.1 = .reset :=
  ⟨⟨{ machine completed (sched := [.host]) with host := { prog := [⟨[], .bufWrite 15 7⟩], pc := 0, vars := [] } }, _,
      ⟨completed_inv, List.Pairwise.nil⟩, rfl, by decide, rfl⟩,
    ⟨machine (issued .enc (blockWith .checked 0x7f 1 [])) (sched := [.core]), _,
      ⟨inv_of _ (by decide) (by decide) (by intro j; cases j <;> decide) (fun h => absurd h (by decide)), List.Pairwise.nil⟩, rfl,
      by decide, rfl⟩,
    ⟨_, _, running_stateInv .checked .rd [] [] [] [.reset], rfl, by decide, rfl⟩⟩
theorem witness_CompletionIsKept : ∃ s t : State, s.Inv ∧ s.blk.status.done = true ∧ step s = .next t ∧ s.takeMove.1 ≠ .reset ∧
    ∀ v, t.trace ≠ s.trace ++ [.regWrite 0 v] :=
  ⟨{ machine completed (sched := [.host]) with host := { prog := [⟨[], .write 2 7⟩], pc := 0, vars := [] } }, _,
    ⟨completed_inv, List.Pairwise.nil⟩, by decide, rfl, by decide,
    by intro v h; simp [machine, State.reset, State.resetWith] at h⟩
/-- Two blocks idle after a command, with different hidden registers, at a step. -/
theorem witness_HiddenStateIsNotSeen : ∃ s s' t : State, s.Inv ∧ s'.Inv ∧ HostEq s.blk s'.blk ∧ s' = { s with blk := s'.blk } ∧
    step s = .next t ∧ s.blk ≠ s'.blk :=
  ⟨machine completed, machine { completed with acc := 5, n := 7, first := 9, opl := 2 }, _, ⟨completed_inv, List.Pairwise.nil⟩,
    ⟨inv_of _ (by decide) (by decide) (by intro j; cases j <;> decide) (fun h => absurd h (by decide)), List.Pairwise.nil⟩,
    ⟨rfl, fun h => absurd h (by decide), fun h => absurd h (by decide), fun h => absurd h (by decide), fun h => absurd h (by decide)⟩,
    rfl, rfl, by decide⟩
theorem witness_ReachableStatesMeetInv : Reachable State.reset := .start _ .default (by decide) rfl rfl

end Sys2Proof.Tests
end

section
/-! What RD does with one byte from the source (41_streaming.md R220, R224), by the three results of `absorb`
(40_codec_core.md R144 to R146). -/

namespace Sys2Proof.Machine

/-! ## The results of `absorb`, by their exact conditions -/

theorem absorb_overflow {acc : Word} {n first b : Byte} (h : n = 9 ∧ (continues b = true ∨ first ≠ 0x81)) :
    absorb acc n first b = .overflow := by
  obtain ⟨rfl, hb⟩ := h
  have h0 : (9 : Byte) ≠ 0 := by decide
  rw [absorb_eq, if_neg h0, if_pos ⟨rfl, hb⟩]

theorem absorb_more {acc : Word} {n first b : Byte} (hn : n ≠ 9) (hb : continues b = true) :
    absorb acc n first b = .more (accumulate acc b) (n + 1) (latchFirst n first b) := by
  rw [absorb_eq, if_neg fun h => hn h.1, if_pos hb, latchFirst]

theorem absorb_done {acc : Word} {n first b : Byte} (hn : n ≠ 9 ∨ first = 0x81) (hb : continues b = false) :
    absorb acc n first b = .done (accumulate acc b) (n + 1) := by
  have hflag : ¬continues b = true := by simp [hb]
  have hfits : ¬(n = 9 ∧ (continues b = true ∨ (if n = 0 then b else first) ≠ 0x81)) := by
    rintro ⟨rfl, hcause⟩
    have hfirst : first = 0x81 := hn.resolve_left (not_not_intro rfl)
    have h0 : (9 : Byte) ≠ 0 := by decide
    rw [if_neg h0] at hcause
    exact hcause.elim hflag (not_not_intro hfirst)
  rw [absorb_eq, if_neg hfits, if_neg hflag]

/-! ## RD, given the result of `absorb` -/

theorem exec_rd_cons {s : State} {a : SrcResp} {rest : List SrcResp} (h : s.source = a :: rest) :
    exec .rd s = .next { s with blk := s.blk.rd a, source := rest, trace := s.trace ++ [.srcRead a] } := by
  simp only [exec, execRd, h]

theorem Block.rd_byte_overflow {b : Block} {x : Byte} (h : absorb b.acc b.n b.first x = .overflow) :
    b.rd (.byte x) = b.finish .overflow64 10 := by
  simp only [Block.rd, h]; rfl

theorem Block.rd_byte_more {b : Block} {x : Byte} {v : Word} {k f : Byte}
    (h : absorb b.acc b.n b.first x = .more v k f) :
    b.rd (.byte x) = { b with acc := v, n := k, first := f } := by
  simp only [Block.rd, h]

theorem Block.rd_byte_done {b : Block} {x : Byte} {v : Word} {k : Byte}
    (h : absorb b.acc b.n b.first x = .done v k) :
    b.rd (.byte x) = { b with value := v }.finish .ok k := by
  simp only [Block.rd, h]

/-- Settles O27: each clause is the condition of one result of `absorb`, and each result is one ending of the step. -/
theorem rdTakesOneByte : Obligations.RdTakesOneByte := by
  intro s b rest hsource _
  rw [exec_rd_cons hsource]
  refine ⟨fun hover => ?_, fun ⟨hn, hb⟩ => ?_, fun ⟨hn, hb⟩ => ?_⟩
  · rw [Block.rd_byte_overflow (absorb_overflow hover)]; rfl
  · rw [Block.rd_byte_more (absorb_more hn hb)]; rfl
  · rw [Block.rd_byte_done (absorb_done hn hb)]; rfl

end Sys2Proof.Machine
end

section
/-! What the core's step of a command can make of the block, in any state, said once (40_codec_core.md, 41_streaming.md); and
what each operation on the block leaves alone. -/

namespace Sys2Proof.Machine

/-- The blocks that one core step of a command can leave of `b`. Every statement that asks which command may write a register
reads it off these six ways. -/
inductive CoreStep (b : Block) : Instr → Block → Prop
  /-- a streaming command waits for its port, or goes on to the next byte -/
  | goesOn (i : Instr) (acc : Word) (n first : Byte) : CoreStep b i { b with acc := acc, n := n, first := first }
  /-- a command completes and writes neither VALUE nor BUF -/
  | completes (i : Instr) (c : ErrCode) (k : Byte) (acc : Word) (n first : Byte) :
      CoreStep b i ({ b with acc := acc, n := n, first := first }.finish c k)
  /-- a port answered `Error(e)` -/
  | failsIo (i : Instr) (e : IoErr) (k : Byte) : CoreStep b i (b.finishIo e k)
  /-- ENC completes with OK -/
  | encodes (buf : Memory) (k : Byte) : CoreStep b .enc ({ b with buf := buf }.finish .ok k)
  /-- DEC or RD completes with OK -/
  | decodes (i : Instr) (hi : i = .dec ∨ i = .rd) (v : Word) (k : Byte) (acc : Word) (n first : Byte) :
      CoreStep b i ({ b with value := v, acc := acc, n := n, first := first }.finish .ok k)
  /-- the LEGACY decoder runs off the buffer -/
  | faults (hp : b.cfg.policy = .legacy) (k : Byte) (acc : Word) (n first : Byte) :
      CoreStep b .dec ({ b with acc := acc, n := n, first := first }.fault .boundsFault k)

/-! ## Each command's step is one of them -/

theorem CoreStep.waits (b : Block) (i : Instr) : CoreStep b i b := .goesOn i b.acc b.n b.first

theorem Block.enc_coreStep (b : Block) : CoreStep b .enc b.enc := by
  rcases b.enc_cases with h | ⟨-, h⟩
  · rw [h]; exact .completes _ _ _ b.acc b.n b.first
  · rw [h]; exact .encodes _ _

theorem Block.dec_coreStep (rd : Nat → Byte) (b : Block) : CoreStep b .dec (b.dec rd) := by
  obtain ⟨acc, n, first, k, ⟨v, h⟩ | ⟨c, -, -, -, h⟩ | ⟨hp, h⟩⟩ := b.dec_cases rd
  · rw [h]; exact .decodes _ (.inl rfl) v k acc n first
  · rw [h]; exact .completes _ c k acc n first
  · rw [h]; exact .faults hp k acc n first

theorem Block.wrb_coreStep (a : BulkResp) (b : Block) : CoreStep b .wrb (b.wrb a) := by
  unfold Block.wrb
  split
  · exact .completes _ _ _ b.acc b.n b.first
  · exact .failsIo _ _ _

theorem Block.wrs_coreStep (a : SinkResp) (b : Block) : CoreStep b .wrs (b.wrs a) := by
  rcases b.wrs_cases a with ⟨e, -, h⟩ | ⟨-, -, h⟩ | ⟨-, -, h⟩
  · rw [h]; exact .failsIo _ _ _
  · rw [h]; exact .completes _ _ _ b.acc (b.n + 1) b.first
  · rw [h]; exact .goesOn _ b.acc (b.n + 1) b.first

theorem Block.rd_coreStep (a : SrcResp) (b : Block) : CoreStep b .rd (b.rd a) := by
  rcases b.rd_cases a with ⟨-, -, h⟩ | ⟨-, -, h⟩ | ⟨e, -, h⟩ | ⟨x, -, -, h⟩ | ⟨x, v, k, -, -, h⟩ | ⟨x, v, k, f, -, -, h⟩
  · rw [h]; exact .completes _ _ _ b.acc b.n b.first
  · rw [h]; exact .completes _ _ _ b.acc b.n b.first
  · rw [h]; exact .failsIo _ _ _
  · rw [h]; exact .completes _ _ _ b.acc b.n b.first
  · rw [h]; exact .decodes _ (.inr rfl) v k b.acc b.n b.first
  · rw [h]; exact .goesOn _ v k f

theorem exec_coreStep {i : Instr} {s t : State} (h : exec i s = .next t) : CoreStep s.blk i t.blk := by
  have hc := exec_cases h
  cases i with
  | enc => obtain rfl := hc; exact s.blk.enc_coreStep
  | dec => obtain rfl := hc; exact s.blk.dec_coreStep s.bufReads
  | wrb =>
    obtain ⟨-, rfl⟩ | ⟨a, _, -, -, rfl⟩ := hc
    · exact .waits _ _
    · exact s.blk.wrb_coreStep a
  | wrs =>
    obtain ⟨-, rfl⟩ | ⟨a, _, -, rfl⟩ := hc
    · exact .waits _ _
    · exact s.blk.wrs_coreStep a
  | rd =>
    obtain ⟨-, rfl⟩ | ⟨a, _, -, rfl⟩ := hc
    · exact .waits _ _
    · exact s.blk.rd_coreStep a

/-! ## What the core's step leaves alone, and who writes the rest -/

section
variable {b b' : Block} {i : Instr}

theorem CoreStep.cfg (h : CoreStep b i b') : b'.cfg = b.cfg := by cases h <;> rfl

theorem CoreStep.bufLen (h : CoreStep b i b') : b'.bufLen = b.bufLen := by cases h <;> rfl

/-- A core step leaves STATUS, or it ends the command. -/
theorem CoreStep.status (h : CoreStep b i b') :
    b'.status = b.status ∨ (b'.status.busy = false ∧ b'.status.done = true) := by
  cases h with
  | goesOn => exact .inl rfl
  | completes | failsIo | encodes | decodes | faults => exact .inr ⟨rfl, rfl⟩

/-- Only the LEGACY decoder writes FAULT (10_state.md R37). -/
theorem CoreStep.fault (h : CoreStep b i b') :
    b'.status.fault = b.status.fault ∨
      (i = .dec ∧ b.cfg.policy = .legacy ∧ b'.status = .faulted .boundsFault ∧ b'.phase = .faulted) := by
  cases h with
  | goesOn | completes | failsIo | encodes | decodes => exact .inl rfl
  | faults hp => exact .inr ⟨rfl, hp, rfl, rfl⟩

/-- Only a DEC or RD that ends with OK writes VALUE (10_state.md R39). -/
theorem CoreStep.value (h : CoreStep b i b') :
    b'.value = b.value ∨ ((i = .dec ∨ i = .rd) ∧ b'.status.err = .ok ∧ b'.status.done = true) := by
  cases h with
  | goesOn | completes | failsIo | encodes | faults => exact .inl rfl
  | decodes _ hi => exact .inr ⟨hi, rfl, rfl⟩

/-- Only an ENC that ends with OK writes BUF (10_state.md R44). -/
theorem CoreStep.buf (h : CoreStep b i b') :
    b'.buf = b.buf ∨ (i = .enc ∧ b'.status.err = .ok ∧ b'.status.done = true) := by
  cases h with
  | goesOn | completes | failsIo | decodes | faults => exact .inl rfl
  | encodes => exact .inr ⟨rfl, rfl, rfl⟩

end

/-! ## What a CMD write leaves alone -/

section
variable (w : Byte) (b : Block)

@[simp] theorem Block.issue_cfg : (b.issue w).cfg = b.cfg := by
  rcases b.issue_cases w with ⟨-, h⟩ | ⟨-, -, h⟩ | ⟨-, -, -, h⟩ | ⟨-, -, i, -, h⟩ <;> simp [h]

@[simp] theorem Block.issue_bufLen : (b.issue w).bufLen = b.bufLen := by
  rcases b.issue_cases w with ⟨-, h⟩ | ⟨-, -, h⟩ | ⟨-, -, -, h⟩ | ⟨-, -, i, -, h⟩ <;> simp [h]

@[simp] theorem Block.issue_value : (b.issue w).value = b.value := by
  rcases b.issue_cases w with ⟨-, h⟩ | ⟨-, -, h⟩ | ⟨-, -, -, h⟩ | ⟨-, -, i, -, h⟩ <;> simp [h]

@[simp] theorem Block.issue_buf : (b.issue w).buf = b.buf := by
  rcases b.issue_cases w with ⟨-, h⟩ | ⟨-, -, h⟩ | ⟨-, -, -, h⟩ | ⟨-, -, i, -, h⟩ <;> simp [h]

@[simp] theorem Block.issue_fault : (b.issue w).status.fault = b.status.fault := by
  rcases b.issue_cases w with ⟨-, h⟩ | ⟨-, -, h⟩ | ⟨-, -, -, h⟩ | ⟨-, -, i, -, h⟩ <;> simp [h]

end

/-! ## What a register write leaves alone -/

section
variable (r : BitVec 4) (v : Word) (b : Block)

@[simp] theorem Block.regWrite_cfg : (b.regWrite r v).cfg = b.cfg := by
  rcases b.regWrite_cases r v with ⟨-, h⟩ | ⟨-, -, h⟩ | ⟨-, -, h⟩ | ⟨-, h⟩ <;> simp [h]

@[simp] theorem Block.regWrite_buf : (b.regWrite r v).buf = b.buf := by
  rcases b.regWrite_cases r v with ⟨-, h⟩ | ⟨-, -, h⟩ | ⟨-, -, h⟩ | ⟨-, h⟩ <;> simp [h]

@[simp] theorem Block.regWrite_fault : (b.regWrite r v).status.fault = b.status.fault := by
  rcases b.regWrite_cases r v with ⟨-, h⟩ | ⟨-, -, h⟩ | ⟨-, -, h⟩ | ⟨-, h⟩ <;> simp [h]

/-- A register write turns BUSY on only as the acceptance of a command (10_state.md R35), and never turns it off. -/
theorem Block.regWrite_busy :
    (b.regWrite r v).status.busy = b.status.busy ∨
      (r = 0 ∧ b.status.busy = false ∧ ∃ i, decode (v.setWidth 8) = .ok i ∧ (b.regWrite r v).phase = runPhase i) := by
  rcases b.regWrite_cases r v with ⟨hr, h⟩ | ⟨-, -, h⟩ | ⟨-, -, h⟩ | ⟨-, h⟩
  · rcases b.issue_cases (v.setWidth 8) with ⟨-, hi⟩ | ⟨-, -, hi⟩ | ⟨-, hb, -, hi⟩ | ⟨-, hb, i, hd, hi⟩
    · exact .inl (by rw [h, hi])
    · exact .inl (by rw [h, hi])
    · exact .inl (by rw [h, hi, hb]; rfl)
    · exact .inr ⟨hr, hb, i, hd, by rw [h, hi]; rfl⟩
  · exact .inl (by rw [h])
  · exact .inl (by rw [h])
  · exact .inl (by rw [h])

end

/-! ## What a BUF write leaves alone -/

/-- A BUF write that lands changes BUF; any other changes nothing (20_memory.md R72). -/
theorem Block.bufWrite_cases (i : Byte) (v : Word) (b : Block) :
    (i < b.cfg.bufMax ∧ b.status.busy = false ∧
      b.bufWrite i v = { b with buf := assocSet b.buf i.toNat (v.setWidth 8) }) ∨ b.bufWrite i v = b := by
  unfold Block.bufWrite
  split
  · exact .inl ⟨‹_ ∧ _›.1, ‹_ ∧ _›.2, rfl⟩
  · exact .inr rfl

section
variable (i : Byte) (v : Word) (b : Block)

@[simp] theorem Block.bufWrite_cfg : (b.bufWrite i v).cfg = b.cfg := by
  rcases b.bufWrite_cases i v with ⟨-, -, h⟩ | h <;> rw [h]

@[simp] theorem Block.bufWrite_status : (b.bufWrite i v).status = b.status := by
  rcases b.bufWrite_cases i v with ⟨-, -, h⟩ | h <;> rw [h]

@[simp] theorem Block.bufWrite_value : (b.bufWrite i v).value = b.value := by
  rcases b.bufWrite_cases i v with ⟨-, -, h⟩ | h <;> rw [h]

end

end Sys2Proof.Machine
end

section
/-! The invariant, clause by clause, under each operation on the block (00_scope.md R13; 10_state.md R30 to R49). -/

namespace Sys2Proof.Machine

/-! ## The clauses that no phase owns -/

/-- The clauses of the invariant that speak of no phase and of no hidden register. A block between commands that meets them
meets the invariant. -/
structure Block.Sound (b : Block) : Prop where
  cfg_wf : b.cfg.wf = true
  bufLen_le : b.bufLen ≤ b.cfg.bufMax
  buf_wf : Memory.wf b.buf
  buf_bound : ∀ c ∈ b.buf, c.1 < b.cfg.bufMax.toNat
  ioerr_code : b.ioerr.valid = false → b.ioerr.code = 0
  ioerr_iff : b.ioerr.valid = true ↔ b.status.err = .ioError
  count_le_bufMax : b.count ≤ b.cfg.bufMax
  count_le_ten : b.cfg.policy = .checked → b.count.toNat ≤ 10

theorem Block.Inv.sound {b : Block} (hb : b.Inv) : b.Sound := { hb with }

theorem runPhase_ne_idle (i : Instr) : runPhase i ≠ .idle := by cases i <;> decide

theorem runPhase_ne_faulted (i : Instr) : runPhase i ≠ .faulted := by cases i <;> decide

theorem Block.Sound.inv_of_idle {b : Block} (hb : b.Sound) (hp : b.phase = .idle) (hbusy : b.status.busy = false)
    (hfault : b.status.fault = false) : b.Inv :=
  { hb with
    busy_eq := by rw [hbusy, hp]; rfl
    not_busy_and_done := by simp [hbusy]
    fault_iff := by simp [hfault, hp]
    busy_cleared := by simp [hbusy]
    opl_latched := fun i hi => absurd (hi.symm.trans hp) (runPhase_ne_idle i)
    faulted_how := by simp [hp]
    staged_eq := by simp [hp]
    wrs_left := by simp [hp]
    rd_consumed := by simp [hp] }

theorem Block.Sound.inv_of_faulted {b : Block} (hb : b.Sound) (hp : b.phase = .faulted)
    (hlegacy : b.cfg.policy = .legacy) (hstatus : b.status = .faulted .boundsFault) : b.Inv :=
  { hb with
    busy_eq := by rw [hstatus, hp]; rfl
    not_busy_and_done := by simp [hstatus]
    fault_iff := by simp [hstatus, hp]
    busy_cleared := by simp [hstatus]
    opl_latched := fun i hi => absurd (hi.symm.trans hp) (runPhase_ne_faulted i)
    faulted_how := by simp [hstatus, hlegacy]
    staged_eq := by simp [hp]
    wrs_left := by simp [hp]
    rd_consumed := by simp [hp] }

theorem byte_zero_le (b : Byte) : (0 : Byte) ≤ b := BitVec.le_def.2 (Nat.zero_le _)

/-- Reset with well-formed parameters (70_reset_and_hazards.md R300). -/
theorem Block.reset_inv {p : Params} (hp : p.wf = true) : (Block.reset p).Inv := by
  have hsound : (Block.reset p).Sound :=
    { cfg_wf := hp
      bufLen_le := byte_zero_le _
      buf_wf := Memory.wf_nil
      buf_bound := by simp [Block.reset]
      ioerr_code := fun _ => rfl
      ioerr_iff := by simp [Block.reset, Status.reset]
      count_le_bufMax := byte_zero_le _
      count_le_ten := fun _ => by simp [Block.reset] }
  exact hsound.inv_of_idle rfl rfl rfl

/-! ## Numbers -/

/-- R6: a COUNT of at most ten is within BUF_MAX. -/
theorem Block.Inv.le_bufMax_of_le_ten {b : Block} (hb : b.Inv) {k : Byte} (hk : k.toNat ≤ 10) : k ≤ b.cfg.bufMax := by
  have hwf : 10 ≤ b.cfg.bufMax.toNat := of_decide_eq_true hb.cfg_wf
  exact BitVec.le_def.2 (by omega)

/-- The length of VALUE's encoding fits COUNT and STAGE_LEN. -/
theorem sdnvLen_word_le_ten (v : Word) : sdnvLen v.toNat ≤ 10 := sdnvLen_le_ten _ v.isLt

theorem ofNat8_toNat_of_le_ten {k : Nat} (hk : k ≤ 10) : (BitVec.ofNat 8 k).toNat = k := by
  rw [BitVec.toNat_ofNat]; omega

/-! ## The end of a running command -/

section
variable {b : Block} (hb : b.Inv) (hrun : b.phase.isRun = true)
include hb hrun

theorem Block.Inv.busy_of_run : b.status.busy = true := hb.busy_eq.trans hrun

theorem Block.Inv.not_fault_of_run : b.status.fault = false := by
  by_contra hf
  have hp := hb.fault_iff.1 (by simpa using hf)
  rw [hp] at hrun
  cases hrun

theorem Block.Inv.ioerr_of_run : b.ioerr = .none := (hb.busy_cleared (hb.busy_of_run hrun)).2.2

/-- `finish(c, k)` of a running command, with any BUF, VALUE and hidden registers, when its COUNT is within the bounds of
10_state.md R40 and `c` is not the code that IOERR goes with. -/
theorem Block.Inv.finish {c : ErrCode} {k : Byte} {buf : Memory} (v : Word) (acc : Word) (n first : Byte)
    (hwf : Memory.wf buf) (hbound : ∀ x ∈ buf, x.1 < b.cfg.bufMax.toNat) (hc : c ≠ .ioError)
    (hk : k ≤ b.cfg.bufMax) (hten : b.cfg.policy = .checked → k.toNat ≤ 10) :
    ({ b with value := v, buf := buf, acc := acc, n := n, first := first }.finish c k).Inv := by
  have hio : b.ioerr.valid = false := by rw [hb.ioerr_of_run hrun]; rfl
  have hsound : ({ b with value := v, buf := buf, acc := acc, n := n, first := first }.finish c k).Sound :=
    { cfg_wf := hb.cfg_wf
      bufLen_le := hb.bufLen_le
      buf_wf := hwf
      buf_bound := hbound
      ioerr_code := hb.ioerr_code
      ioerr_iff := by simp [hio, hc]
      count_le_bufMax := hk
      count_le_ten := hten }
  exact hsound.inv_of_idle rfl rfl (hb.not_fault_of_run hrun)

/-- `finish` of a command that does not write BUF, with a COUNT of at most ten. -/
theorem Block.Inv.finish_le_ten {c : ErrCode} {k : Byte} (v acc : Word) (n first : Byte) (hc : c ≠ .ioError)
    (hk : k.toNat ≤ 10) : ({ b with value := v, acc := acc, n := n, first := first }.finish c k).Inv :=
  hb.finish hrun v acc n first hb.buf_wf hb.buf_bound hc (hb.le_bufMax_of_le_ten hk) fun _ => hk

/-- A port's `Error` answer, after at most ten bytes. -/
theorem Block.Inv.finishIo_le_ten {k : Byte} (e : IoErr) (hk : k.toNat ≤ 10) : (b.finishIo e k).Inv := by
  have hsound : (b.finishIo e k).Sound :=
    { cfg_wf := hb.cfg_wf
      bufLen_le := hb.bufLen_le
      buf_wf := hb.buf_wf
      buf_bound := hb.buf_bound
      ioerr_code := by simp
      ioerr_iff := by simp
      count_le_bufMax := hb.le_bufMax_of_le_ten hk
      count_le_ten := fun _ => hk }
  exact hsound.inv_of_idle rfl rfl (hb.not_fault_of_run hrun)

end

/-! ## ENC -/

theorem Block.Inv.enc {b : Block} (hb : b.Inv) (hp : b.phase = .runEnc) : b.enc.Inv := by
  have hrun : b.phase.isRun = true := by rw [hp]; rfl
  have hlen := sdnvLen_word_le_ten b.value
  have hbufLen := BitVec.le_def.1 hb.bufLen_le
  rcases b.enc_cases with h | ⟨hcap, h⟩
  · rw [h]
    exact hb.finish_le_ten hrun b.value b.acc b.n b.first (by decide) (by decide)
  · rw [h]
    have hk : (BitVec.ofNat 8 (sdnvLen b.value.toNat)).toNat ≤ 10 := by rwa [ofNat8_toNat_of_le_ten hlen]
    refine hb.finish hrun b.value b.acc b.n b.first (Memory.wf_writeFrom hb.buf_wf _ _) (fun x hx => ?_) (by decide)
      (hb.le_bufMax_of_le_ten hk) fun _ => hk
    rcases Memory.mem_writeFrom hx with hx | ⟨-, hx⟩
    · exact hb.buf_bound x hx
    · rw [sdnvEncode_length] at hx; omega

/-! ## DEC: how far each decoder counts -/

theorem absorb_done_count {acc a : Word} {n first b k : Byte} (h : absorb acc n first b = .done a k) : k = n + 1 := by
  rw [absorb_eq] at h
  generalize (if n = 0 then b else first) = f at h
  split_ifs at h
  cases h; rfl

/-- A flagged byte that does not overflow is before the 10th (40_codec_core.md R146). -/
theorem absorb_more_count {acc a : Word} {n first b k f : Byte} (h : absorb acc n first b = .more a k f) :
    n ≠ 9 ∧ k = n + 1 := by
  rw [absorb_eq] at h
  generalize (if n = 0 then b else first) = g at h
  split_ifs at h with hover hflag
  cases h
  exact ⟨fun hn => hover ⟨hn, .inl hflag⟩, rfl⟩

theorem byte_succ_toNat {n : Byte} (hn : n.toNat ≤ 9) : (n + 1).toNat = n.toNat + 1 := by
  rw [BitVec.toNat_add]; simp; omega

theorem byte_le_eight_of_ne_nine {n : Byte} (hn : n.toNat ≤ 9) (h9 : n ≠ 9) : n.toNat ≤ 8 := by
  have : n.toNat ≠ 9 := fun h => h9 (BitVec.eq_of_toNat_eq h)
  omega

/-- R171: the checked loop counts to ten at most. -/
theorem decCheckedLoop_count_le_ten (rd : Nat → Byte) (left : Nat) (b : Block) (hn : b.n.toNat ≤ 9) :
    (decCheckedLoop rd left b).count.toNat ≤ 10 := by
  induction left generalizing b with
  | zero =>
    rw [decCheckedLoop]
    split
    · simp
    · simp; omega
  | succ left ih =>
    rw [decCheckedLoop]
    split
    · simp [maxByteSize]
    · rename_i a k h
      have hk := byte_succ_toNat hn
      rw [absorb_done_count h]
      simp only [Block.finish_count]; omega
    · rename_i a k f h
      obtain ⟨h9, rfl⟩ := absorb_more_count h
      have h8 := byte_le_eight_of_ne_nine hn h9
      exact ih _ (by have := byte_succ_toNat hn; simp only; omega)

/-- R162: the LEGACY loop counts to the end of the buffer at most. -/
theorem decLegacyLoop_count_le (rd : Nat → Byte) (left : Nat) (b : Block) (hn : b.n.toNat + left ≤ 255) :
    (decLegacyLoop rd left b).count.toNat ≤ b.n.toNat + left := by
  induction left generalizing b with
  | zero => simp [decLegacyLoop]
  | succ left ih =>
    have hsucc : (b.n + 1).toNat = b.n.toNat + 1 := by rw [BitVec.toNat_add]; simp; omega
    rw [decLegacyLoop]
    split
    · refine (ih _ ?_).trans ?_ <;> simp only [hsucc] <;> omega
    · simp only [Block.finish_count, hsucc]; omega

theorem Block.dec_count_le_ten (rd : Nat → Byte) (b : Block) (hp : b.cfg.policy = .checked) :
    (b.dec rd).count.toNat ≤ 10 := by
  simp only [Block.dec, hp]
  exact decCheckedLoop_count_le_ten rd _ _ (by simp)

theorem Block.dec_count_le_bufLen (rd : Nat → Byte) (b : Block) (hp : b.cfg.policy = .legacy) :
    (b.dec rd).count ≤ b.bufLen := by
  simp only [Block.dec, hp, BitVec.le_def]
  have hlt := b.bufLen.isLt
  have h := decLegacyLoop_count_le rd b.bufLen.toNat { b with acc := 0, n := 0, first := 0 } (by simp; omega)
  exact h.trans_eq (Nat.zero_add _)

/-- R40, R171: DEC's COUNT is within the bounds of the invariant. -/
theorem Block.Inv.dec_count {b : Block} (hb : b.Inv) (rd : Nat → Byte) :
    (b.dec rd).count ≤ b.cfg.bufMax ∧ (b.cfg.policy = .checked → (b.dec rd).count.toNat ≤ 10) := by
  refine ⟨?_, b.dec_count_le_ten rd⟩
  cases hp : b.cfg.policy with
  | checked => exact hb.le_bufMax_of_le_ten (b.dec_count_le_ten rd hp)
  | legacy => exact BitVec.le_trans (b.dec_count_le_bufLen rd hp) hb.bufLen_le

theorem Block.Inv.dec {b : Block} (hb : b.Inv) (hp : b.phase = .runDec) (rd : Nat → Byte) : (b.dec rd).Inv := by
  have hrun : b.phase.isRun = true := by rw [hp]; rfl
  have hcount := hb.dec_count rd
  obtain ⟨acc, n, first, k, ⟨v, h⟩ | ⟨c, -, -, hc, h⟩ | ⟨hlegacy, h⟩⟩ := b.dec_cases rd <;> rw [h] at hcount ⊢
  · exact hb.finish hrun v acc n first hb.buf_wf hb.buf_bound (by decide) hcount.1 hcount.2
  · have hne : c ≠ .ioError := by obtain rfl | rfl | rfl := hc <;> decide
    exact hb.finish hrun b.value acc n first hb.buf_wf hb.buf_bound hne hcount.1 hcount.2
  · have hio : b.ioerr.valid = false := by rw [hb.ioerr_of_run hrun]; rfl
    have hsound : ({ b.fault .boundsFault k with acc := acc, n := n, first := first } : Block).Sound :=
      { cfg_wf := hb.cfg_wf
        bufLen_le := hb.bufLen_le
        buf_wf := hb.buf_wf
        buf_bound := hb.buf_bound
        ioerr_code := hb.ioerr_code
        ioerr_iff := by simp [hio]
        count_le_bufMax := hcount.1
        count_le_ten := hcount.2 }
    exact hsound.inv_of_faulted rfl hlegacy rfl

/-! ## WRB -/

theorem Block.Inv.stageLen_le_ten {b : Block} (hb : b.Inv) (hp : b.phase = .runWrb ∨ b.phase = .runWrs) :
    b.stageLen.toNat ≤ 10 := by
  rw [(hb.staged_eq hp).2]
  exact sdnvLen_word_le_ten b.value

theorem Block.Inv.wrb {b : Block} (hb : b.Inv) (hp : b.phase = .runWrb) {a : BulkResp}
    (ha : a.accepted ≤ b.stageLen.toNat) : (b.wrb a).Inv := by
  have hrun : b.phase.isRun = true := by rw [hp]; rfl
  have hten : a.accepted ≤ 10 := ha.trans (hb.stageLen_le_ten (.inl hp))
  have hk : (BitVec.ofNat 8 a.accepted).toNat ≤ 10 := by rwa [ofNat8_toNat_of_le_ten hten]
  unfold Block.wrb
  split
  · exact hb.finish_le_ten hrun b.value b.acc b.n b.first (by decide) hk
  · exact hb.finishIo_le_ten hrun _ hk

/-! ## WRS -/

theorem Block.Inv.wrs {b : Block} (hb : b.Inv) (hp : b.phase = .runWrs) (a : SinkResp) : (b.wrs a).Inv := by
  have hrun : b.phase.isRun = true := by rw [hp]; rfl
  have hleft := hb.wrs_left hp
  have hten := hb.stageLen_le_ten (.inr hp)
  have hsucc : (b.n + 1).toNat = b.n.toNat + 1 := byte_succ_toNat (by omega)
  rcases b.wrs_cases a with ⟨e, -, h⟩ | ⟨-, -, h⟩ | ⟨-, hmore, h⟩ <;> rw [h]
  · exact hb.finishIo_le_ten hrun e (by omega)
  · exact hb.finish_le_ten hrun b.value b.acc (b.n + 1) b.first (by decide) (by omega)
  · have hne : b.n.toNat + 1 ≠ b.stageLen.toNat := by
      intro heq
      apply hmore
      apply BitVec.eq_of_toNat_eq
      rw [hsucc, BitVec.toNat_setWidth, heq]
      omega
    exact { hb with
      wrs_left := fun _ => by simp only [hsucc]; omega
      rd_consumed := fun h => by simp [hp] at h }

/-! ## RD -/

/-- One more flagged byte consumed (10_state.md R46 to R48). -/
theorem Block.Consumed.concat {b : Block} {bs : List Byte} (h : b.Consumed bs) {x : Byte} {v : Word} {k f : Byte}
    (hx : absorb b.acc b.n b.first x = .more v k f) :
    Block.Consumed { b with acc := v, n := k, first := f } (bs ++ [x]) := by
  rw [h.absorb_eq] at hx
  split_ifs at hx with hover hflag
  cases hx
  have hlen : bs.length + 1 ≤ 9 := by
    have hle := h.length_le
    have hne : bs.length ≠ 9 := fun h9 => hover ⟨h9, .inl hflag⟩
    omega
  have hlen' : (bs ++ [x]).length ≤ 9 := by simpa using hlen
  exact {
    length_eq := by simp only [List.length_append, List.length_singleton]; rw [ofNat8_toNat_of_le_ten (by omega)]
    length_le := hlen'
    flagged := by
      intro y hy
      rcases List.mem_append.1 hy with hy | hy
      · exact h.flagged y hy
      · rw [List.mem_singleton.1 hy]; exact hflag
    acc_eq := by
      simp only [BitVec.toNat_ofNat]
      exact Nat.mod_eq_of_lt (sdnvValue_lt_of_length _ hlen')
    first_eq := fun y hy => by simp only [firstAfter, hy, Option.getD_some] }

theorem Block.Inv.rd {b : Block} (hb : b.Inv) (hp : b.phase = .runRd) (a : SrcResp) : (b.rd a).Inv := by
  have hrun : b.phase.isRun = true := by rw [hp]; rfl
  obtain ⟨bs, hbs⟩ := hb.rd_consumed hp
  have hn : b.n.toNat ≤ 9 := hbs.length_eq ▸ hbs.length_le
  rcases b.rd_cases a with
    ⟨-, -, h⟩ | ⟨-, -, h⟩ | ⟨e, -, h⟩ | ⟨x, -, -, h⟩ | ⟨x, v, k, -, hx, h⟩ | ⟨x, v, k, f, -, hx, h⟩ <;> rw [h]
  · exact hb.finish_le_ten hrun b.value b.acc b.n b.first (by decide) (by decide)
  · exact hb.finish_le_ten hrun b.value b.acc b.n b.first (by decide) (by omega)
  · exact hb.finishIo_le_ten hrun e (by omega)
  · exact hb.finish_le_ten hrun b.value b.acc b.n b.first (by decide) (by decide)
  · have hk : k.toNat ≤ 10 := by rw [absorb_done_count hx, byte_succ_toNat hn]; omega
    exact hb.finish_le_ten hrun v b.acc b.n b.first (by decide) hk
  · exact { hb with
      wrs_left := fun h => by simp [hp] at h
      rd_consumed := fun _ => ⟨bs ++ [x], hbs.concat hx⟩ }

/-! ## The core's step -/

theorem exec_inv {i : Instr} {s t : State} (hs : s.blk.Inv) (hp : s.blk.phase = runPhase i) (h : exec i s = .next t) :
    t.blk.Inv := by
  have hc := exec_cases h
  cases i with
  | enc => obtain rfl := hc; exact hs.enc hp
  | dec => obtain rfl := hc; exact hs.dec hp s.bufReads
  | wrb =>
    obtain ⟨-, rfl⟩ | ⟨a, _, -, ha, rfl⟩ := hc
    · exact hs
    · exact hs.wrb hp ha
  | wrs =>
    obtain ⟨-, rfl⟩ | ⟨a, _, -, rfl⟩ := hc
    · exact hs
    · exact hs.wrs hp a
  | rd =>
    obtain ⟨-, rfl⟩ | ⟨a, _, -, rfl⟩ := hc
    · exact hs
    · exact hs.rd hp a

/-! ## The host's writes -/

/-- A block that is neither BUSY nor FAULT is idle (10_state.md R31). -/
theorem Block.Inv.idle {b : Block} (hb : b.Inv) (hbusy : b.status.busy = false) (hfault : b.status.fault = false) :
    b.phase = .idle := by
  have hrun : b.phase.isRun = false := hb.busy_eq.symm.trans hbusy
  have hne : b.phase ≠ .faulted := fun h => by rw [hb.fault_iff.2 h] at hfault; cases hfault
  cases h : b.phase with
  | idle => rfl
  | faulted => exact absurd h hne
  | runEnc | runDec | runWrb | runWrs | runRd => rw [h] at hrun; cases hrun

theorem Block.Inv.illegal {b : Block} (hb : b.Inv) (hbusy : b.status.busy = false) (hfault : b.status.fault = false) :
    b.illegal.Inv := by
  have hsound : b.illegal.Sound :=
    { cfg_wf := hb.cfg_wf
      bufLen_le := hb.bufLen_le
      buf_wf := hb.buf_wf
      buf_bound := hb.buf_bound
      ioerr_code := by simp
      ioerr_iff := by simp
      count_le_bufMax := byte_zero_le _
      count_le_ten := fun _ => by simp }
  exact hsound.inv_of_idle (hb.idle hbusy hfault) rfl hfault

/-- The writers' Entry actions stage the encoding of VALUE (41_streaming.md R200, R210). -/
theorem Block.loadStage_encoding (b : Block) (v : Word) :
    (b.loadStage (sdnvEncode v.toNat)).staged = sdnvEncode v.toNat ∧
      (b.loadStage (sdnvEncode v.toNat)).stageLen.toNat = sdnvLen v.toNat := by
  have hlen := sdnvLen_word_le_ten v
  refine ⟨Block.loadStage_staged _ b (by simpa using hlen), ?_⟩
  simp only [Block.loadStage_stageLen, sdnvEncode_length, BitVec.toNat_ofNat]
  omega

theorem Block.accept_staged {b : Block} {w : Byte} {i : Instr} (hi : runPhase i = .runWrb ∨ runPhase i = .runWrs) :
    (b.accept w i).staged = sdnvEncode b.value.toNat ∧ (b.accept w i).stageLen.toNat = sdnvLen b.value.toNat := by
  cases i with
  | wrb | wrs => exact Block.loadStage_encoding _ b.value
  | enc | dec | rd => simp [runPhase] at hi

theorem decode_eq_ok_encode {w : Byte} {i : Instr} (h : decode w = .ok i) : w = encode i := by
  revert w; cases i <;> decide

/-- Acceptance (60_exceptions.md R266). -/
theorem Block.Inv.accept {b : Block} (hb : b.Inv) (hfault : b.status.fault = false) {w : Byte} {i : Instr}
    (hd : decode w = .ok i) : (b.accept w i).Inv where
  cfg_wf := by simpa using hb.cfg_wf
  bufLen_le := by simpa using hb.bufLen_le
  buf_wf := by simpa using hb.buf_wf
  buf_bound := by simpa using hb.buf_bound
  busy_eq := by simp
  not_busy_and_done := by simp
  fault_iff := by simp [hfault, runPhase_ne_faulted]
  busy_cleared := by simp
  opl_latched := fun j hj => by
    rw [Block.accept_opl, decode_eq_ok_encode hd, runPhase_injective i j hj]
  ioerr_code := by simp
  ioerr_iff := by simp
  faulted_how := fun h => absurd h (runPhase_ne_faulted i)
  count_le_bufMax := by rw [Block.accept_count]; exact byte_zero_le _
  count_le_ten := by simp
  staged_eq := fun h => by rw [Block.accept_value]; exact Block.accept_staged h
  wrs_left := fun h => by
    obtain rfl : i = .wrs := runPhase_injective i .wrs h
    have hlen : (b.accept w .wrs).stageLen.toNat = sdnvLen b.value.toNat := (Block.accept_staged (.inr rfl)).2
    rw [hlen]
    exact sdnvLen_pos _
  rd_consumed := fun h => by
    obtain rfl : i = .rd := runPhase_injective i .rd h
    exact ⟨[], rfl, by simp, by simp, rfl, by simp⟩

theorem Block.Inv.issue {b : Block} (hb : b.Inv) (w : Byte) : (b.issue w).Inv := by
  rcases b.issue_cases w with ⟨-, h⟩ | ⟨-, -, h⟩ | ⟨hfault, hbusy, -, h⟩ | ⟨hfault, -, i, hd, h⟩ <;> rw [h]
  · exact hb
  · exact hb
  · exact hb.illegal hbusy hfault
  · exact hb.accept hfault hd

/-- R42: what a write of BUF_LEN stores, as a number. -/
theorem Params.clampLen_toNat (p : Params) (v : Byte) : (Params.clampLen p v).toNat = min v.toNat p.bufMax.toNat := by
  unfold Params.clampLen
  split <;> rename_i h <;> rw [BitVec.le_def] at h <;> omega

/-- While no command runs, a write of VALUE or BUF_LEN touches no clause but BUF_LEN's own (10_state.md R42). -/
theorem Block.Inv.setVisible {b : Block} (hb : b.Inv) (hbusy : b.status.busy = false) (v : Word) {l : Byte}
    (hl : l ≤ b.cfg.bufMax) : ({ b with value := v, bufLen := l } : Block).Inv := by
  have hrun : b.phase.isRun = false := hb.busy_eq.symm.trans hbusy
  exact { hb with
    bufLen_le := hl
    staged_eq := fun h => by
      obtain (h : b.phase = _) | (h : b.phase = _) := h <;> rw [h] at hrun <;> cases hrun
    wrs_left := hb.wrs_left
    rd_consumed := fun (h : b.phase = _) => by rw [h] at hrun; cases hrun }

theorem Block.Inv.regWrite {b : Block} (hb : b.Inv) (r : BitVec 4) (v : Word) : (b.regWrite r v).Inv := by
  rcases b.regWrite_cases r v with ⟨-, h⟩ | ⟨-, hbusy, h⟩ | ⟨-, hbusy, h⟩ | ⟨-, h⟩ <;> rw [h]
  · exact hb.issue _
  · exact hb.setVisible hbusy v hb.bufLen_le
  · exact hb.setVisible hbusy b.value (BitVec.le_def.2 (by rw [Params.clampLen_toNat]; omega))
  · exact hb

theorem Block.Inv.bufWrite {b : Block} (hb : b.Inv) (i : Byte) (v : Word) : (b.bufWrite i v).Inv := by
  rcases b.bufWrite_cases i v with ⟨hi, -, h⟩ | h <;> rw [h]
  · exact { hb with
      buf_wf := Memory.wf_set hb.buf_wf _ _
      buf_bound := fun c hc => by
        rcases mem_assocSet hc with rfl | hc
        · exact BitVec.lt_def.1 hi
        · exact hb.buf_bound c hc
      staged_eq := hb.staged_eq
      wrs_left := hb.wrs_left
      rd_consumed := fun h => by
        obtain ⟨bs, hbs⟩ := hb.rd_consumed h
        exact ⟨bs, { hbs with }⟩ }
  · exact hb

/-! ## The machine's step -/

theorem step_blk_inv {s t : State} (hs : s.blk.Inv) (h : step s = .next t) : t.blk.Inv := by
  rcases step_blk_cases h with ⟨hb, -⟩ | ⟨-, hrun, i, hd, he⟩ | ⟨-, r, v, hb, -⟩ | ⟨-, i, v, hb, -⟩ | ⟨-, hb, -⟩
  · rwa [hb]
  · exact exec_inv (s := { s with sched := s.sched.tail }) hs (hs.runs hrun hd) he
  · rw [hb]; exact hs.regWrite r v
  · rw [hb]; exact hs.bufWrite i v
  · rw [hb]; exact Block.reset_inv hs.cfg_wf

/-- No core step touches the host. -/
theorem exec_host {i : Instr} {s t : State} (h : exec i s = .next t) : t.host = s.host := by
  have hc := exec_cases h
  cases i with
  | enc | dec => obtain rfl := hc; rfl
  | wrb | wrs | rd => obtain ⟨-, rfl⟩ | ⟨_, _, h⟩ := hc <;> simp_all

/-- A step leaves the host's variables, or assigns one. -/
theorem step_vars {s t : State} (h : step s = .next t) :
    t.host.vars = s.host.vars ∨ ∃ x v, t.host.vars = assocSet s.host.vars x v := by
  rcases step_cases h with ⟨-, h⟩ | ⟨-, h⟩ | ⟨-, rfl⟩
  · rcases coreMove_cases h with ⟨-, rfl⟩ | ⟨i, -, -, he⟩
    · exact .inl rfl
    · exact .inl (by rw [exec_host he])
  · rcases hostMove_cases h with rfl | ⟨line, -, h⟩
    · exact .inl rfl
    · rcases hostOp_cases h with ⟨r, v, -, rfl⟩ | ⟨i, v, -, rfl⟩ | ⟨r, x, -, rfl⟩ | ⟨i, x, -, rfl⟩ | ⟨pc, -, rfl⟩
      · exact .inl rfl
      · exact .inl rfl
      · exact .inr ⟨x, _, rfl⟩
      · exact .inr ⟨x, _, rfl⟩
      · exact .inl rfl
  · exact .inl rfl

theorem step_vars_wf {s t : State} (hs : s.host.vars.Pairwise fun a b => a.1 < b.1) (h : step s = .next t) :
    t.host.vars.Pairwise fun a b => a.1 < b.1 := by
  rcases step_vars h with hv | ⟨x, v, hv⟩ <;> rw [hv]
  · exact hs
  · exact assocSet_rising hs x v

/-- Settles O51: the block by the move that was made, the host's variables by the one assignment a step can do. -/
theorem stepKeepsInv : Obligations.StepKeepsInv :=
  fun _ _ hs h => ⟨step_blk_inv hs.blk h, step_vars_wf hs.vars_wf h⟩

/-- Settles O50: the reset values of the registers, and no host variable assigned. -/
theorem invAtReset : Obligations.InvAtReset := fun _ hp => ⟨Block.reset_inv hp, List.Pairwise.nil⟩

/-- Settles O60, by induction on the run. -/
theorem reachableStatesMeetInv : Obligations.ReachableStatesMeetInv := by
  intro s hs
  induction hs with
  | start s p hp hb hv => exact ⟨hb ▸ Block.reset_inv hp, by rw [hv]; exact List.Pairwise.nil⟩
  | step s t _ h ih => exact stepKeepsInv s t ih h

end Sys2Proof.Machine
end

section
/-! The core's move in a `RUN_x` phase (10_state.md R31, R45), and which events write FAULT, BUSY, VALUE and BUF (10_state.md R35 to
R44), read off the machine's step. -/

namespace Sys2Proof.Machine

/-! ## The step as an equation -/

theorem step_eq (s : State) :
    step s = match s.takeMove.1 with
      | .core => coreMove { s with sched := s.sched.tail }
      | .host => hostMove { s with sched := s.sched.tail }
      | .reset => .next ({ s with sched := s.sched.tail } : State).assertReset := by
  rw [← s.takeMove_snd]
  unfold step
  cases s.takeMove with
  | mk m u => cases m <;> rfl

theorem coreMove_of_not_run {s : State} (h : s.blk.phase.isRun = false) : coreMove s = .next s := by
  simp only [coreMove, Block.fetch, h]; rfl

theorem coreMove_of_run {s : State} {i : Instr} (h : s.blk.phase.isRun = true) (hd : decode (oplWord s.blk.opl) = .ok i) :
    coreMove s = exec i s := by
  simp only [coreMove, Block.fetch, h, hd]; rfl

/-- Under the invariant OPL decodes to the command of the phase (10_state.md R45). -/
theorem Block.Inv.decode_opl {b : Block} (hb : b.Inv) {i : Instr} (hp : b.phase = runPhase i) :
    decode (oplWord b.opl) = .ok i := by
  rw [hb.opl_latched i hp, decode_oplWord_encode]

theorem Block.Inv.coreMove_eq_exec {s : State} (hb : s.blk.Inv) {i : Instr} (hp : s.blk.phase = runPhase i) :
    coreMove s = exec i s :=
  coreMove_of_run (by rw [hp]; exact runPhase_isRun i) (hb.decode_opl hp)

/-- Settles O49: the step is the core's move, which runs what OPL decodes to. -/
theorem stepRunsLatchedCommand : Obligations.StepRunsLatchedCommand := by
  intro s i hs hp hm
  refine ⟨hs.blk.decode_opl hp, ?_⟩
  rw [step_eq, hm]
  exact Block.Inv.coreMove_eq_exec (s := { s with sched := s.sched.tail }) hs.blk hp

/-- Settles O21: the invariant's STAGE is the encoding of VALUE, and the sink's answer is at most its length. -/
theorem wrbSendsWholeEncoding : Obligations.WrbSendsWholeEncoding := by
  intro s t a rest hs hp hbulk ha h
  obtain ⟨hstaged, hlen⟩ := hs.blk.staged_eq (.inl hp)
  have hten := ha.trans (sdnvLen_word_le_ten s.blk.value)
  rw [hs.blk.coreMove_eq_exec (i := .wrb) hp] at h
  have hvalue := (exec_coreStep h).value
  obtain ⟨hnone, -⟩ | ⟨a', rest', hcons, -, rfl⟩ := exec_cases h
  · rw [hbulk] at hnone; cases hnone
  · obtain ⟨rfl, rfl⟩ : a = a' ∧ rest = rest' := by simpa [hbulk] using hcons
    refine ⟨by rw [hstaged], ?_, by simpa using hvalue⟩
    rw [show (s.blk.wrb a).count = BitVec.ofNat 8 a.accepted by unfold Block.wrb; split <;> rfl]
    exact ofNat8_toNat_of_le_ten hten

/-! ## FAULT (10_state.md R37) -/

/-- A step leaves FAULT, or sets it as the LEGACY decoder's fault, or clears it as reset. -/
theorem step_fault {s t : State} (h : step s = .next t) :
    t.blk.status.fault = s.blk.status.fault ∨
    (s.takeMove.1 = .core ∧ s.blk.fetch = some (.ok .dec) ∧ s.blk.cfg.policy = .legacy ∧
      t.blk.status = .faulted .boundsFault ∧ t.blk.phase = .faulted) ∨
    (s.takeMove.1 = .reset ∧ t.blk.status.fault = false) := by
  rcases step_blk_cases h with ⟨hb, -⟩ | ⟨hm, hrun, i, hd, he⟩ | ⟨-, r, v, hb, -⟩ | ⟨-, i, v, hb, -⟩ | ⟨hm, hb, -⟩
  · exact .inl (by rw [hb])
  · rcases (exec_coreStep he).fault with hf | ⟨rfl, hlegacy, hstatus, hphase⟩
    · exact .inl hf
    · exact .inr (.inl ⟨hm, by rw [Block.fetch, if_pos hrun, hd], hlegacy, hstatus, hphase⟩)
  · exact .inl (by rw [hb, Block.regWrite_fault])
  · exact .inl (by rw [hb, Block.bufWrite_status])
  · exact .inr (.inr ⟨hm, by rw [hb]; rfl⟩)

/-- Settles O53, by the three ways of `step_fault`. -/
theorem faultIsSticky : Obligations.FaultIsSticky := by
  intro s t h
  have hignored : s.blk.status.fault = true → ∀ v, s.blk.regWrite 0 v = s.blk := fun hf _ => if_pos hf
  rcases step_fault h with hf | ⟨hm, hfetch, hlegacy, hstatus, hphase⟩ | ⟨hm, hf⟩
  · exact ⟨fun h0 h1 => by simp [hf, h0] at h1, fun h1 h0 => by simp [hf, h1] at h0, hignored⟩
  · exact ⟨fun _ _ => ⟨hm, hfetch, hlegacy, by rw [hstatus]; rfl, hphase⟩, fun _ h0 => by simp [hstatus] at h0, hignored⟩
  · exact ⟨fun _ h1 => by simp [hf] at h1, fun _ _ => hm, hignored⟩

/-! ## BUSY (10_state.md R35) -/

theorem Phase.isRun_iff (p : Phase) :
    p.isRun = true ↔ p = .runEnc ∨ p = .runDec ∨ p = .runWrb ∨ p = .runWrs ∨ p = .runRd := by
  cases p <;> simp [Phase.isRun]

/-- A step leaves BUSY, or sets it by accepting a command, or clears it by completing one or by reset. -/
theorem step_busy {s t : State} (h : step s = .next t) :
    t.blk.status.busy = s.blk.status.busy ∨
    (∃ v i, t.trace = s.trace ++ [.regWrite 0 v] ∧ decode (v.setWidth 8) = .ok i ∧ t.blk.phase = runPhase i ∧
      s.blk.status.busy = false) ∨
    (t.blk.status.busy = false ∧ ((s.takeMove.1 = .core ∧ t.blk.status.done = true) ∨ s.takeMove.1 = .reset)) := by
  rcases step_blk_cases h with ⟨hb, -⟩ | ⟨hm, -, i, -, he⟩ | ⟨-, r, v, hb, htrace⟩ | ⟨-, i, v, hb, -⟩ | ⟨hm, hb, -⟩
  · exact .inl (by rw [hb])
  · rcases (exec_coreStep he).status with hst | ⟨hbusy, hdone⟩
    · exact .inl (by rw [hst])
    · exact .inr (.inr ⟨hbusy, .inl ⟨hm, hdone⟩⟩)
  · rcases s.blk.regWrite_busy r v with hbusy | ⟨rfl, hbusy, i, hd, hp⟩
    · exact .inl (by rw [hb, hbusy])
    · exact .inr (.inl ⟨v, i, htrace, hd, by rw [hb, hp], hbusy⟩)
  · exact .inl (by rw [hb, Block.bufWrite_status])
  · exact .inr (.inr ⟨by rw [hb]; rfl, .inr hm⟩)

/-- Settles O55: the invariant after the step, and the three ways of `step_busy`. -/
theorem busyExactlyWhileRunning : Obligations.BusyExactlyWhileRunning := by
  intro s t hs h
  refine ⟨?_, fun h0 h1 => ?_, fun h1 h0 => ?_⟩
  · rw [(stepKeepsInv s t hs h).blk.busy_eq, Phase.isRun_iff]
  · rcases step_busy h with hkept | ⟨v, i, htrace, hd, hp, -⟩ | ⟨hclear, -⟩
    · simp [hkept, h0] at h1
    · exact ⟨v, i, htrace, hd, hp⟩
    · simp [hclear] at h1
  · rcases step_busy h with hkept | ⟨_, _, -, -, -, hidle⟩ | ⟨-, hhow⟩
    · simp [hkept, h1] at h0
    · simp [hidle] at h1
    · exact hhow

/-! ## VALUE and BUF (10_state.md R39, R44) -/

/-- Settles O56: of the operations on the block only a VALUE write, a decoder's completion and reset write VALUE. -/
theorem whoWritesValue : Obligations.WhoWritesValue := by
  intro s t hs h hne
  rcases step_blk_cases h with ⟨hb, -⟩ | ⟨hm, hrun, i, hd, he⟩ | ⟨-, r, v, hb, htrace⟩ | ⟨-, i, v, hb, -⟩ | ⟨hm, -⟩
  · exact absurd (by rw [hb]) hne
  · obtain ⟨hi, herr, hdone⟩ := (exec_coreStep he).value.resolve_left hne
    have hp := hs.blk.runs hrun hd
    exact .inr (.inl ⟨hm, by obtain rfl | rfl := hi <;> simp [hp, runPhase], herr, hdone⟩)
  · rcases s.blk.regWrite_cases r v with ⟨-, hw⟩ | ⟨rfl, hbusy, hw⟩ | ⟨-, -, hw⟩ | ⟨-, hw⟩ <;> rw [hw] at hb
    · exact absurd (by rw [hb, Block.issue_value]) hne
    · exact .inl ⟨hbusy, by rw [htrace, hb]⟩
    · exact absurd (by rw [hb]) hne
    · exact absurd (by rw [hb]) hne
  · exact absurd (by rw [hb, Block.bufWrite_value]) hne
  · exact .inr (.inr hm)

/-- Settles O57: of the operations on the block only a BUF write that lands, ENC's completion and reset write BUF. -/
theorem whoWritesBuf : Obligations.WhoWritesBuf := by
  intro s t hs h hne
  rcases step_blk_cases h with ⟨hb, -⟩ | ⟨hm, hrun, i, hd, he⟩ | ⟨-, r, v, hb, -⟩ | ⟨-, i, v, hb, htrace⟩ | ⟨hm, -⟩
  · exact absurd (by rw [hb]) hne
  · obtain ⟨rfl, herr, hdone⟩ := (exec_coreStep he).buf.resolve_left hne
    exact .inr (.inl ⟨hm, hs.blk.runs hrun hd, herr, hdone⟩)
  · exact absurd (by rw [hb, Block.regWrite_buf]) hne
  · rcases s.blk.bufWrite_cases i v with ⟨hi, hbusy, -⟩ | hw
    · exact .inl ⟨hbusy, i, v, hi, htrace⟩
    · exact absurd (by rw [hb, hw]) hne
  · exact .inr (.inr hm)

end Sys2Proof.Machine
end

section
/-! The host's accesses: the words of the registers, CONFIG, BUF_LEN, BUF, and the frame of each access (20_memory.md R71 to R73). -/

namespace Sys2Proof.Machine

/-! ## The words of the registers as numbers -/

theorem toNat_append_eq_add {w v : Nat} (x : BitVec w) (y : BitVec v) :
    (x ++ y).toNat = x.toNat * 2 ^ v + y.toNat := by
  rw [BitVec.toNat_append, ← Nat.shiftLeft_add_eq_or_of_lt y.isLt, Nat.shiftLeft_eq]

/-- POLICY as CONFIG shows it (10_state.md R41). -/
def Policy.bit : Policy → Nat
  | .checked => 0
  | .legacy => 1

theorem Params.word_toNat (p : Params) :
    (Params.word p).toNat = 10 + 16 * Policy.bit p.policy + 256 * p.bufMax.toNat := by
  cases h : p.policy <;>
    simp only [Params.word, h, BitVec.toNat_cast, toNat_append_eq_add, BitVec.toNat_ofNat, maxByteSize, Policy.bit] <;>
    omega

theorem Status.word_toNat (s : Status) :
    s.word.toNat = s.busy.toNat + 2 * s.done.toNat + 4 * s.fault.toNat + 16 * s.err.code.toNat := by
  simp only [Status.word, BitVec.toNat_cast, toNat_append_eq_add, BitVec.toNat_ofBool, BitVec.toNat_ofNat]
  omega

theorem IoErrReg.word_toNat (e : IoErrReg) : e.word.toNat = e.valid.toNat * 2 ^ 32 + e.code.toNat := by
  simp only [IoErrReg.word, BitVec.toNat_cast, toNat_append_eq_add, BitVec.toNat_ofBool]

section
variable (b : Block)

theorem Block.regRead_status_toNat : (b.regRead 1).toNat = b.status.word.toNat := BitVec.toNat_setWidth_of_le (by decide)

theorem Block.regRead_ioerr_toNat : (b.regRead 5).toNat = b.ioerr.word.toNat := BitVec.toNat_setWidth_of_le (by decide)

theorem Block.regRead_config_toNat :
    (b.regRead 6).toNat = 10 + 16 * Policy.bit b.cfg.policy + 256 * b.cfg.bufMax.toNat :=
  (BitVec.toNat_setWidth_of_le (by decide)).trans (Params.word_toNat b.cfg)

theorem Block.regRead_of_seven_le {r : BitVec 4} (hr : 7 ≤ r.toNat) : b.regRead r = 0 := by
  unfold Block.regRead
  split
  case h_8 => rfl
  all_goals omega

end

/-! ## CONFIG (10_state.md R41) and the reads of all registers -/

theorem step_cfg {s t : State} (h : step s = .next t) : t.blk.cfg = s.blk.cfg := by
  rcases step_blk_cases h with ⟨hb, -⟩ | ⟨-, -, i, -, he⟩ | ⟨-, r, v, hb, -⟩ | ⟨-, i, v, hb, -⟩ | ⟨-, hb, -⟩
  · rw [hb]
  · exact (exec_coreStep he).cfg
  · rw [hb, Block.regWrite_cfg]
  · rw [hb, Block.bufWrite_cfg]
  · rw [hb]; rfl

/-- Settles O40: the word of CONFIG, and no operation writes a parameter. -/
theorem configIsConstant : Obligations.ConfigIsConstant := by
  refine ⟨fun b => ?_, fun s t h => ?_⟩
  · rw [b.regRead_config_toNat]; rfl
  · show (Params.word t.blk.cfg).setWidth 64 = (Params.word s.blk.cfg).setWidth 64
    rw [step_cfg h]

/-- Settles O39: each word as the sum of its fields. -/
theorem registerReads : Obligations.RegisterReads := by
  intro b
  refine ⟨rfl, rfl, rfl, rfl, ?_, ?_, ?_, fun r hr => b.regRead_of_seven_le hr⟩
  · rw [b.regRead_status_toNat, Status.word_toNat]
    cases b.status.err <;> rfl
  · rw [b.regRead_ioerr_toNat, IoErrReg.word_toNat]
  · rw [b.regRead_config_toNat]; rfl

/-! ## BUF_LEN (10_state.md R42) -/

theorem Params.clampLen_setWidth (p : Params) (v : Word) :
    Params.clampLen p (v.setWidth 8) = BitVec.ofNat 8 (min (v.toNat % 256) p.bufMax.toNat) := by
  have hlt := p.bufMax.isLt
  apply BitVec.eq_of_toNat_eq
  rw [Params.clampLen_toNat, BitVec.toNat_setWidth, BitVec.toNat_ofNat]
  omega

theorem Block.regWrite_bufLen {b : Block} (v : Word) (hb : b.status.busy = false) :
    b.regWrite 4 v = { b with bufLen := BitVec.ofNat 8 (min (v.toNat % 256) b.cfg.bufMax.toNat) } := by
  rw [← Params.clampLen_setWidth]
  exact if_neg (by simp [hb])

/-- Settles O41: what the one write of BUF_LEN stores, and that neither a CMD write nor a core step writes it. -/
theorem bufLenIsWriteAnyReadLegal : Obligations.BufLenIsWriteAnyReadLegal := by
  refine ⟨fun b v hb => b.regWrite_bufLen v hb, fun b v hb => if_pos hb, fun s v hb => ?_,
    fun b w => b.issue_bufLen w, fun i s t h => (exec_coreStep h).bufLen⟩
  rw [← Block.regWrite_bufLen v hb]; rfl

/-! ## BUF and the host's accesses (20_memory.md R71, R72) -/

theorem Block.bufWrite_out_of_range {b : Block} {i : Byte} (v : Word) (hi : b.cfg.bufMax ≤ i) : b.bufWrite i v = b :=
  if_neg fun h => absurd h.1 (BitVec.not_lt.2 hi)

/-- What the host reads of BUF after its write, at every index. -/
theorem Block.bufRead_bufWrite {b : Block} (hb : b.status.busy = false) (i : Byte) (v : Word) (d : Nat) (j : Byte) :
    (b.bufWrite i v).bufRead d j = if j = i ∧ i < b.cfg.bufMax then v.setWidth 8 else b.bufRead d j := by
  by_cases hi : i < b.cfg.bufMax
  · have hw : b.bufWrite i v = { b with buf := assocSet b.buf i.toNat (v.setWidth 8) } := if_pos ⟨hi, hb⟩
    rw [hw]
    by_cases hj : j = i
    · subst hj
      rw [if_pos ⟨rfl, hi⟩, Block.bufRead, if_pos hi]
      exact Memory.byteAt_of_get (assocGet_assocSet_same _ _ _)
    · rw [if_neg fun h => hj h.1]
      have hne : j.toNat ≠ i.toNat := fun h => hj (BitVec.eq_of_toNat_eq h)
      simp only [Block.bufRead, Memory.byteAt_congr (assocGet_assocSet_other b.buf i.toNat j.toNat (v.setWidth 8) hne)]
  · rw [if_neg fun h => hi h.2, Block.bufWrite_out_of_range v (BitVec.not_lt.1 hi)]

/-- Settles O42, from what a read gives after a write at any two indices. -/
theorem bufAccess : Obligations.BufAccess := by
  refine ⟨fun _ _ _ => rfl, fun s i v hb => ⟨_, rfl, fun d j => Block.bufRead_bufWrite hb i v d j⟩, fun _ _ _ => rfl,
    fun b i v hi => Block.bufWrite_out_of_range v hi, fun b i v hi hb => ⟨fun d => ?_, fun d j hj => ?_, ?_⟩⟩
  · rw [Block.bufRead_bufWrite hb, if_pos ⟨rfl, hi⟩]
  · rw [Block.bufRead_bufWrite hb, if_neg fun h => hj h.1]
  · rcases b.bufWrite_cases i v with ⟨-, -, h⟩ | h <;> rw [h]

/-! ## The host's register writes and reads (20_memory.md R72, R73) -/

/-- A write to a register other than CMD, VALUE and BUF_LEN is ignored (10_state.md R52). -/
theorem Block.regWrite_ignored {b : Block} {r : BitVec 4} (v : Word) (h0 : r ≠ 0) (h2 : r ≠ 2) (h4 : r ≠ 4) :
    b.regWrite r v = b := by
  rcases b.regWrite_cases r v with ⟨hr, -⟩ | ⟨hr, -⟩ | ⟨hr, -⟩ | ⟨-, h⟩
  · exact absurd hr h0
  · exact absurd hr h2
  · exact absurd hr h4
  · exact h

theorem Block.regWrite_value {b : Block} (v : Word) (hb : b.status.busy = false) :
    b.regWrite 2 v = { b with value := v } := if_neg (by simp [hb])

/-- Settles O43: the writes that land, and that every other register ignores its write. -/
theorem registerWrites : Obligations.RegisterWrites := by
  refine ⟨fun _ _ _ => rfl, fun s v hb => ?_, fun s r v h0 h2 h4 => ?_, fun b v hb => ?_⟩
  · rw [← Block.regWrite_value v hb]; rfl
  · rw [hostOp, Block.regWrite_ignored v h0 h2 h4]; rfl
  · refine ⟨Block.regWrite_value v hb, rfl, rfl, rfl, rfl, rfl, fun r hr => ?_⟩
    have hne : ∀ k : BitVec 4, k.toNat < 7 → r ≠ k := fun k hk h => by subst h; omega
    exact Block.regWrite_ignored v (hne 0 (by decide)) (hne 2 (by decide)) (hne 4 (by decide))

/-- Settles O45: a read assigns one variable; of the host's operations only the two writes touch the block, and none the
streams. -/
theorem hostReadsHaveNoSideEffect : Obligations.HostReadsHaveNoSideEffect := by
  refine ⟨fun s r x => ⟨_, rfl, assocGet_assocSet_same _ _ _, fun y hy => assocGet_assocSet_other _ _ _ _ hy⟩,
    fun s i x => ⟨_, rfl, assocGet_assocSet_same _ _ _, fun y hy => assocGet_assocSet_other _ _ _ _ hy⟩,
    fun s t op hw hbw h => ?_⟩
  rcases hostOp_cases h with ⟨r, v, hop, -⟩ | ⟨i, v, hop, -⟩ | ⟨r, x, -, rfl⟩ | ⟨i, x, -, rfl⟩ | ⟨pc, -, rfl⟩
  · exact absurd hop (hw r v)
  · exact absurd hop (hbw i v)
  · exact ⟨rfl, rfl, rfl, rfl⟩
  · exact ⟨rfl, rfl, rfl, rfl⟩
  · exact ⟨rfl, rfl, rfl, rfl⟩

end Sys2Proof.Machine
end

section
/-! Two blocks that differ only in hidden registers the running command has not written (10_state.md R51): each operation on the
one is matched by the same operation on the other, and they differ only so again. -/

namespace Sys2Proof.Machine

/-! ## Giving a block other hidden registers -/

/-- `b` with the hidden registers of `d` (10_state.md R45 to R50). -/
def Block.withHidden (b d : Block) : Block :=
  { b with opl := d.opl, acc := d.acc, n := d.n, first := d.first, stage := d.stage, stageLen := d.stageLen }

/-- `b` with the OPL, STAGE and STAGE_LEN of `d`: the hidden registers that no decoder uses. -/
def Block.withLatches (b d : Block) : Block := { b with opl := d.opl, stage := d.stage, stageLen := d.stageLen }

/-- Blocks that show a host the same (10_state.md R51). -/
def SameVisible (b c : Block) : Prop := c = b.withHidden c

theorem sameVisible_withLatches (b d : Block) : SameVisible b (b.withLatches d) := rfl

theorem sameVisible_withHidden (b d : Block) : SameVisible b (b.withHidden d) := rfl

/-- With no command running, showing the same is all there is. -/
theorem hostEq_of_not_run {b c : Block} (hv : SameVisible b c) (hrun : b.phase.isRun = false) : HostEq b c where
  same := hv
  opl := fun h => by rw [hrun] at h; cases h
  rd := fun h => by rw [h] at hrun; cases hrun
  wr := fun h => by obtain h | h := h <;> rw [h] at hrun <;> cases hrun
  wrs := fun h => by rw [h] at hrun; cases hrun

theorem hostEq_refl (b : Block) : HostEq b b :=
  ⟨rfl, fun _ => rfl, fun _ => ⟨rfl, rfl, rfl⟩, fun _ => ⟨rfl, rfl⟩, fun _ => rfl⟩

section
variable {b c : Block} (h : SameVisible b c)
include h

theorem SameVisible.exists_hidden : ∃ d, c = b.withHidden d := ⟨c, h⟩

theorem SameVisible.cfg : c.cfg = b.cfg := by rw [h]; rfl
theorem SameVisible.phase : c.phase = b.phase := by rw [h]; rfl
theorem SameVisible.status : c.status = b.status := by rw [h]; rfl
theorem SameVisible.value : c.value = b.value := by rw [h]; rfl
theorem SameVisible.buf : c.buf = b.buf := by rw [h]; rfl

theorem SameVisible.regRead (r : BitVec 4) : c.regRead r = b.regRead r := by rw [h]; rfl

theorem SameVisible.bufRead (d : Nat) (i : Byte) : c.bufRead d i = b.bufRead d i := by rw [h]; rfl

theorem SameVisible.finish (e : ErrCode) (k : Byte) : SameVisible (b.finish e k) (c.finish e k) := by
  rw [h]; rfl

theorem SameVisible.finishIo (e : IoErr) (k : Byte) : SameVisible (b.finishIo e k) (c.finishIo e k) := by
  rw [h]; rfl

end

/-! ## ENC and WRB -/

theorem hostEq_enc {b c : Block} (h : SameVisible b c) : HostEq b.enc c.enc := by
  obtain ⟨d, rfl⟩ := h.exists_hidden
  have he : (b.withHidden d).enc = b.enc.withHidden d := by
    unfold Block.enc
    rw [apply_ite (Block.withHidden · d)]
    rfl
  have hidle : b.enc.phase = .idle := by
    rcases b.enc_cases with h | ⟨-, h⟩ <;> rw [h] <;> rfl
  rw [he]
  exact hostEq_of_not_run (sameVisible_withHidden _ d) (by rw [hidle]; rfl)

theorem hostEq_wrb {b c : Block} (h : SameVisible b c) (a : BulkResp) : HostEq (b.wrb a) (c.wrb a) := by
  unfold Block.wrb
  split
  · exact hostEq_of_not_run (h.finish _ _) rfl
  · exact hostEq_of_not_run (h.finishIo _ _) rfl

/-! ## DEC -/

theorem decCheckedLoop_withLatches (rd : Nat → Byte) (left : Nat) (b d : Block) :
    decCheckedLoop rd left (b.withLatches d) = (decCheckedLoop rd left b).withLatches d := by
  induction left generalizing b with
  | zero =>
    simp only [decCheckedLoop]
    rw [apply_ite (Block.withLatches · d)]
    rfl
  | succ left ih =>
    have hx : absorb (b.withLatches d).acc (b.withLatches d).n (b.withLatches d).first (rd (b.withLatches d).n.toNat) =
      absorb b.acc b.n b.first (rd b.n.toNat) := rfl
    simp only [decCheckedLoop, hx]
    split
    · rfl
    · rfl
    · rename_i acc n first _
      exact ih { b with acc := acc, n := n, first := first }

theorem decLegacyLoop_withLatches (rd : Nat → Byte) (left : Nat) (b d : Block) :
    decLegacyLoop rd left (b.withLatches d) = (decLegacyLoop rd left b).withLatches d := by
  induction left generalizing b with
  | zero => rfl
  | succ left ih =>
    by_cases hx : continues (rd b.n.toNat) = true
    · have hx' : continues (rd (b.withLatches d).n.toNat) = true := hx
      rw [decLegacyLoop, decLegacyLoop, if_pos hx, if_pos hx']
      exact ih { b with
        n := b.n + 1
        acc := accumulate b.acc (rd b.n.toNat)
        first := latchFirst b.n b.first (rd b.n.toNat) }
    · have hx' : ¬continues (rd (b.withLatches d).n.toNat) = true := hx
      rw [decLegacyLoop, decLegacyLoop, if_neg hx, if_neg hx']
      rfl

/-- DEC clears ACC, N and FIRST, and uses no other hidden register. -/
theorem Block.dec_withHidden (rd : Nat → Byte) (b d : Block) : (b.withHidden d).dec rd = (b.dec rd).withLatches d := by
  have hp : (b.withHidden d).cfg.policy = b.cfg.policy := rfl
  unfold Block.dec
  rw [hp]
  cases b.cfg.policy with
  | checked => exact decCheckedLoop_withLatches rd b.bufLen.toNat { b with acc := 0, n := 0, first := 0 } d
  | legacy => exact decLegacyLoop_withLatches rd b.bufLen.toNat { b with acc := 0, n := 0, first := 0 } d

theorem Block.dec_not_run (rd : Nat → Byte) (b : Block) : (b.dec rd).phase.isRun = false := by
  obtain ⟨acc, n, first, k, ⟨v, h⟩ | ⟨c, -, -, -, h⟩ | ⟨-, h⟩⟩ := b.dec_cases rd <;> rw [h] <;> rfl

theorem hostEq_dec {b c : Block} (h : SameVisible b c) (rd : Nat → Byte) : HostEq (b.dec rd) (c.dec rd) := by
  obtain ⟨d, rfl⟩ := h.exists_hidden
  rw [Block.dec_withHidden]
  exact hostEq_of_not_run (sameVisible_withLatches _ d) (b.dec_not_run rd)

/-! ## WRS -/

theorem hostEq_wrs {b c : Block} (h : HostEq b c) (hp : b.phase = .runWrs) (a : SinkResp) :
    HostEq (b.wrs a) (c.wrs a) := by
  have hv : SameVisible b c := h.same
  have hn := h.wrs hp
  have hlen := (h.wr (.inr hp)).2
  have hv' : SameVisible { b with n := b.n + 1 } { c with n := b.n + 1 } := by
    rw [h.same]; rfl
  cases a with
  | error e =>
    simp only [Block.wrs, hn]
    exact hostEq_of_not_run (hv.finishIo e b.n) rfl
  | ok =>
    have hc : c.wrs .ok = if b.n + 1 = b.stageLen.setWidth 8 then { c with n := b.n + 1 }.finish .ok (b.n + 1)
        else { c with n := b.n + 1 } := by
      rw [← hn, ← hlen]; rfl
    rw [hc]
    simp only [Block.wrs]
    split
    · exact hostEq_of_not_run (hv'.finish .ok (b.n + 1)) rfl
    · exact { same := hv', opl := h.opl, rd := fun hr => by simp [hp] at hr, wr := h.wr, wrs := fun _ => rfl }

/-- With a byte left to send, `STAGE[N]` is a byte of the staged sequence. -/
theorem Block.stageByte_eq {b : Block} (h : b.n.toNat < b.stageLen.toNat) :
    b.stageByte = b.staged.getD b.n.toNat 0 := by
  simp [Block.stageByte, Block.staged, List.getD_eq_getElem?_getD, h]

/-! ## RD -/

theorem Block.rd_withLatches (a : SrcResp) (b d : Block) : (b.withLatches d).rd a = (b.rd a).withLatches d := by
  cases a with
  | endOfInput =>
    simp only [Block.rd]
    rw [apply_ite (Block.withLatches · d)]
    rfl
  | error e => rfl
  | byte x =>
    have hx : absorb (b.withLatches d).acc (b.withLatches d).n (b.withLatches d).first x = absorb b.acc b.n b.first x := rfl
    simp only [Block.rd, hx]
    split <;> rfl

theorem CoreStep.phase {b b' : Block} {i : Instr} (h : CoreStep b i b') :
    b'.phase = b.phase ∨ b'.phase.isRun = false := by
  cases h with
  | goesOn => exact .inl rfl
  | completes | failsIo | encodes | decodes | faults => exact .inr rfl

theorem CoreStep.opl {b b' : Block} {i : Instr} (h : CoreStep b i b') : b'.opl = b.opl := by cases h <;> rfl

theorem hostEq_rd {b c : Block} (h : HostEq b c) (hp : b.phase = .runRd) (a : SrcResp) : HostEq (b.rd a) (c.rd a) := by
  obtain ⟨hacc, hn, hfirst⟩ := h.rd hp
  have hc : c = b.withLatches c := by
    rw [h.same, hacc, hn, hfirst]; rfl
  rw [hc, Block.rd_withLatches]
  rcases (b.rd_coreStep a).phase with hphase | hstop
  · have hopl : c.opl = b.opl := h.opl (by rw [hp]; rfl)
    exact {
      same := rfl
      opl := fun _ => hopl.trans (b.rd_coreStep a).opl.symm
      rd := fun _ => ⟨rfl, rfl, rfl⟩
      wr := fun hw => by rw [hphase, hp] at hw; simp at hw
      wrs := fun hw => by rw [hphase, hp] at hw; cases hw }
  · exact hostEq_of_not_run (sameVisible_withLatches _ c) hstop

/-! ## The host's writes -/

/-- Acceptance writes every hidden register that its command reads before writing (10_state.md R51). -/
theorem hostEq_accept {b c : Block} (h : SameVisible b c) (w : Byte) (i : Instr) : HostEq (b.accept w i) (c.accept w i) where
  same := by
    obtain ⟨d, rfl⟩ := h.exists_hidden
    cases i <;> rfl
  opl := fun _ => by simp
  rd := fun hp => by
    obtain rfl : i = .rd := runPhase_injective i .rd hp
    exact ⟨rfl, rfl, rfl⟩
  wr := fun hp => by
    obtain ⟨hb, hbl⟩ := Block.accept_staged (b := b) (w := w) hp
    obtain ⟨hc, hcl⟩ := Block.accept_staged (b := c) (w := w) hp
    rw [h.value] at hc hcl
    exact ⟨hc.trans hb.symm, BitVec.eq_of_toNat_eq (hcl.trans hbl.symm)⟩
  wrs := fun hp => by
    obtain rfl : i = .wrs := runPhase_injective i .wrs hp
    rfl

theorem hostEq_issue {b c : Block} (h : HostEq b c) (w : Byte) : HostEq (b.issue w) (c.issue w) := by
  have hv : SameVisible b c := h.same
  unfold Block.issue
  rw [hv.status]
  split
  · exact h
  split
  · exact h
  split
  · exact ⟨by rw [h.same]; rfl, h.opl, h.rd, h.wr, h.wrs⟩
  · exact hostEq_accept hv w _

theorem hostEq_regWrite {b c : Block} (h : HostEq b c) (r : BitVec 4) (v : Word) :
    HostEq (b.regWrite r v) (c.regWrite r v) := by
  have hv : SameVisible b c := h.same
  unfold Block.regWrite
  rw [hv.status, hv.cfg]
  split
  · exact hostEq_issue h _
  · split
    · exact h
    · exact ⟨by rw [h.same], h.opl, h.rd, h.wr, h.wrs⟩
  · split
    · exact h
    · exact ⟨by rw [h.same], h.opl, h.rd, h.wr, h.wrs⟩
  · exact h

theorem hostEq_bufWrite {b c : Block} (h : HostEq b c) (i : Byte) (v : Word) :
    HostEq (b.bufWrite i v) (c.bufWrite i v) := by
  have hv : SameVisible b c := h.same
  unfold Block.bufWrite
  rw [hv.status, hv.cfg]
  split
  · exact ⟨by rw [h.same], h.opl, h.rd, h.wr, h.wrs⟩
  · exact h

/-! ## The machine -/

section
variable {s t : State} {c : Block}

theorem exec_hostEq {i : Instr} (hs : s.blk.Inv) (hc : c.Inv) (h : HostEq s.blk c) (hp : s.blk.phase = runPhase i)
    (he : exec i s = .next t) :
    ∃ c', exec i { s with blk := c } = .next { t with blk := c' } ∧ HostEq t.blk c' := by
  have hv : SameVisible s.blk c := h.same
  have hcases := exec_cases he
  cases i with
  | enc => obtain rfl := hcases; exact ⟨c.enc, rfl, hostEq_enc hv⟩
  | dec =>
    obtain rfl := hcases
    have hreads : ({ s with blk := c } : State).bufReads = s.bufReads := by simp only [State.bufReads, hv.buf]
    exact ⟨c.dec s.bufReads, by simp only [exec, execDec, hreads], hostEq_dec hv _⟩
  | wrb =>
    obtain ⟨hstaged, hlen⟩ := h.wr (.inl hp)
    obtain ⟨hnone, rfl⟩ | ⟨a, rest, hcons, ha, rfl⟩ := hcases
    · exact ⟨c, by simp only [exec, execWrb, hnone], h⟩
    · exact ⟨c.wrb a, by simp only [exec, execWrb, hcons, hlen, hstaged, ha, if_true], hostEq_wrb hv a⟩
  | wrs =>
    obtain ⟨hstaged, hlen⟩ := h.wr (.inr hp)
    have hn := h.wrs hp
    have hbyte : c.stageByte = s.blk.stageByte := by
      rw [Block.stageByte_eq (hc.wrs_left (hv.phase.trans hp)), Block.stageByte_eq (hs.wrs_left hp), hstaged, hn]
    obtain ⟨hnone, rfl⟩ | ⟨a, rest, hcons, rfl⟩ := hcases
    · exact ⟨c, by simp only [exec, execWrs, hnone], h⟩
    · exact ⟨c.wrs a, by simp only [exec, execWrs, hcons, hbyte], hostEq_wrs h hp a⟩
  | rd =>
    obtain ⟨hnone, rfl⟩ | ⟨a, rest, hcons, rfl⟩ := hcases
    · exact ⟨c, by simp only [exec, execRd, hnone], h⟩
    · exact ⟨c.rd a, by simp only [exec, execRd, hcons], hostEq_rd h hp a⟩

theorem coreMove_hostEq (hs : s.blk.Inv) (hc : c.Inv) (h : HostEq s.blk c) (hm : coreMove s = .next t) :
    ∃ c', coreMove { s with blk := c } = .next { t with blk := c' } ∧ HostEq t.blk c' := by
  have hphase : c.phase = s.blk.phase := SameVisible.phase h.same
  rcases coreMove_cases hm with ⟨hrun, rfl⟩ | ⟨i, hrun, hd, he⟩
  · exact ⟨c, coreMove_of_not_run (by rw [← hrun, ← hphase]), h⟩
  · have hp := hs.runs hrun hd
    rw [Block.Inv.coreMove_eq_exec (s := { s with blk := c }) hc (hphase.trans hp)]
    exact exec_hostEq hs hc h hp he

theorem hostOp_hostEq {op : HostOp} (h : HostEq s.blk c) (ho : hostOp op s = .next t) :
    ∃ c', hostOp op { s with blk := c } = .next { t with blk := c' } ∧ HostEq t.blk c' := by
  have hv : SameVisible s.blk c := h.same
  cases op with
  | write r v => cases ho; exact ⟨c.regWrite r v, rfl, hostEq_regWrite h r v⟩
  | bufWrite i v => cases ho; exact ⟨c.bufWrite i v, rfl, hostEq_bufWrite h i v⟩
  | read r x => cases ho; exact ⟨c, by simp only [hostOp, hv.regRead], h⟩
  | bufRead i x => cases ho; exact ⟨c, by simp only [hostOp, hv.bufRead], h⟩
  | blank => cases ho; exact ⟨c, rfl, h⟩
  | bz x m l =>
    by_cases hz : s.host.var x &&& m = 0
    · cases hl : findLabel s.host.prog l with
      | none => simp only [hostOp, hz, hl, if_true] at ho; cases ho
      | some p =>
        simp only [hostOp, hz, hl, if_true] at ho ⊢
        cases ho
        exact ⟨c, rfl, h⟩
    · simp only [hostOp, hz, if_false] at ho ⊢
      cases ho
      exact ⟨c, rfl, h⟩

theorem hostMove_hostEq (h : HostEq s.blk c) (hm : hostMove s = .next t) :
    ∃ c', hostMove { s with blk := c } = .next { t with blk := c' } ∧ HostEq t.blk c' := by
  unfold hostMove at hm ⊢
  cases hl : s.host.prog[s.host.pc]? with
  | none =>
    rw [hl] at hm; cases hm
    exact ⟨c, rfl, h⟩
  | some line =>
    rw [hl] at hm
    exact hostOp_hostEq h hm

/-- Who moves next does not depend on the hidden registers. -/
theorem takeMove_hostEq (h : HostEq s.blk c) : ({ s with blk := c } : State).takeMove.1 = s.takeMove.1 := by
  have hphase : c.phase = s.blk.phase := SameVisible.phase h.same
  have henabled : ({ s with blk := c } : State).coreEnabled = s.coreEnabled := by
    simp only [State.coreEnabled, hphase]
  unfold State.takeMove
  rw [henabled]
  cases s.sched <;> rfl

theorem step_hostEq (hs : s.blk.Inv) (hc : c.Inv) (h : HostEq s.blk c) (hstep : step s = .next t) :
    ∃ c', step { s with blk := c } = .next { t with blk := c' } ∧ HostEq t.blk c' := by
  rw [step_eq, takeMove_hostEq h]
  rcases step_cases hstep with ⟨hm, hcore⟩ | ⟨hm, hhost⟩ | ⟨hm, rfl⟩ <;> rw [hm]
  · exact coreMove_hostEq (s := { s with sched := s.sched.tail }) hs hc h hcore
  · exact hostMove_hostEq (s := { s with sched := s.sched.tail }) h hhost
  · have hcfg : c.cfg = s.blk.cfg := SameVisible.cfg h.same
    exact ⟨.reset c.cfg, rfl, by rw [hcfg]; exact hostEq_refl _⟩

end

/-- Settles O59: the two states differ in the block only, so the step of the one is matched by `step_hostEq`. -/
theorem hiddenStateIsNotSeen : Obligations.HiddenStateIsNotSeen := by
  intro s s' t hs hs' heq hsame hstep
  obtain ⟨c', hc', hrel⟩ := step_hostEq hs.blk hs'.blk heq hstep
  rw [← hsame] at hc'
  exact ⟨_, hc', hrel, rfl⟩

end Sys2Proof.Machine
end

section
/-! The ports and the machine's next step: what the streaming commands do on a silent port and on an answer that is none of the
port's (20_memory.md R74 to R76), and that only such an answer, or a branch to no line, stops the machine (30_encoding.md R126). -/

namespace Sys2Proof.Machine

/-! ## A port with no answer, and a bulk answer longer than what was sent -/

theorem exec_wrb_nil {s : State} (h : s.bulk = []) : exec .wrb s = .next s := by simp only [exec, execWrb, h]

theorem exec_wrs_nil {s : State} (h : s.sink = []) : exec .wrs s = .next s := by simp only [exec, execWrs, h]

theorem exec_rd_nil {s : State} (h : s.source = []) : exec .rd s = .next s := by simp only [exec, execRd, h]

theorem exec_wrb_cons {s : State} {a : BulkResp} {rest : List BulkResp} (h : s.bulk = a :: rest) :
    exec .wrb s = if a.accepted ≤ s.blk.stageLen.toNat
      then .next { s with blk := s.blk.wrb a, bulk := rest, trace := s.trace ++ [.sinkBulk s.blk.staged a] }
      else .refused (.bulkAnswerTooLong a.accepted) := by
  simp only [exec, execWrb, h]

theorem exec_wrs_cons {s : State} {a : SinkResp} {rest : List SinkResp} (h : s.sink = a :: rest) :
    exec .wrs s = .next { s with blk := s.blk.wrs a, sink := rest, trace := s.trace ++ [.sinkByte s.blk.stageByte a] } := by
  simp only [exec, execWrs, h]

/-- Settles O22: the answer's k is above the bound under which WRB has its step. -/
theorem wrbHasNoStepForLongAnswer : Obligations.WrbHasNoStepForLongAnswer := by
  intro s a rest hbulk hlong
  rw [exec_wrb_cons hbulk, if_neg (Nat.not_le_of_lt hlong)]

/-! ## Waiting -/

/-- A core that has no step it can take stays where it is, whether it has no command or its port is silent. -/
theorem coreMove_of_not_enabled {s : State} (hs : s.blk.Inv) (h : s.coreEnabled = false) : coreMove s = .next s := by
  unfold State.coreEnabled at h
  cases hp : s.blk.phase with
  | idle | faulted => exact coreMove_of_not_run (by rw [hp]; rfl)
  | runEnc | runDec => simp [hp] at h
  | runWrb => exact (hs.coreMove_eq_exec (i := .wrb) hp).trans (exec_wrb_nil (by simpa [hp] using h))
  | runWrs => exact (hs.coreMove_eq_exec (i := .wrs) hp).trans (exec_wrs_nil (by simpa [hp] using h))
  | runRd => exact (hs.coreMove_eq_exec (i := .rd) hp).trans (exec_rd_nil (by simpa [hp] using h))

theorem run_core_of_not_enabled {s : State} (hs : s.blk.Inv) (h : s.coreEnabled = false) (k : Nat) (ms : List Move) :
    Sys2Proof.core.run k { s with sched := List.replicate k .core ++ ms } = .next { s with sched := ms } := by
  induction k with
  | zero => rfl
  | succ k ih =>
    have hstep : step { s with sched := List.replicate (k + 1) .core ++ ms } =
        .next { s with sched := List.replicate k .core ++ ms } := by
      rw [step_eq]
      exact coreMove_of_not_enabled (s := { s with sched := List.replicate k .core ++ ms }) hs h
    rw [run_succ k _ _ hstep, ih]

/-- Settles O29: a streaming command with a silent port is a core that has no step it can take. -/
theorem streamsWaitForTheirPort : Obligations.StreamsWaitForTheirPort := by
  intro s k ms hs hsilent
  have hwaits : s.coreEnabled = false ∧ s.blk.phase.isRun = true := by
    rcases hsilent with ⟨hp, hport⟩ | ⟨hp, hport⟩ | ⟨hp, hport⟩ <;> simp [State.coreEnabled, Phase.isRun, hp, hport]
  obtain ⟨hblocked, hrun⟩ := hwaits
  exact ⟨run_core_of_not_enabled hs.blk hblocked k ms, hs.blk.busy_of_run hrun⟩

/-! ## The machine has a next state -/

/-- Of the commands only WRB can lack a step, and only where the sink has broken its duty (20_memory.md R76). -/
theorem exec_proceeds {i : Instr} {s : State}
    (hduty : i = .wrb → ∀ a, s.bulk.head? = some a → a.accepted ≤ s.blk.stageLen.toNat) : ∃ t, exec i s = .next t := by
  cases i with
  | enc | dec => exact ⟨_, rfl⟩
  | wrb =>
    cases hbulk : s.bulk with
    | nil => exact ⟨_, exec_wrb_nil hbulk⟩
    | cons a rest => exact ⟨_, (exec_wrb_cons hbulk).trans (if_pos (hduty rfl a (by rw [hbulk]; rfl)))⟩
  | wrs =>
    cases hsink : s.sink with
    | nil => exact ⟨_, exec_wrs_nil hsink⟩
    | cons a rest => exact ⟨_, exec_wrs_cons hsink⟩
  | rd =>
    cases hsource : s.source with
    | nil => exact ⟨_, exec_rd_nil hsource⟩
    | cons a rest => exact ⟨_, exec_rd_cons hsource⟩

theorem coreMove_proceeds {s : State} (hs : s.blk.Inv) (hduty : s.BulkDuty) : ∃ t, coreMove s = .next t := by
  cases hrun : s.blk.phase.isRun with
  | false => exact ⟨s, coreMove_of_not_run hrun⟩
  | true =>
    obtain ⟨i, hp⟩ := exists_runPhase _ hrun
    rw [hs.coreMove_eq_exec hp]
    exact exec_proceeds fun hi => hduty (by rw [hp, hi]; rfl)

/-- A label that stands on a line is found. -/
theorem exists_findLabel {prog : List HostLine} {l : Label} (h : labelDefined prog l = true) :
    ∃ p, findLabel prog l = some p :=
  Option.isSome_iff_exists.1 (List.findIdx?_isSome.trans h)

theorem progWf_op {prog : List HostLine} (h : progWf prog = true) {line : HostLine} (hl : line ∈ prog) :
    line.op.wf prog = true := by
  obtain ⟨hops, -⟩ := Bool.and_eq_true_iff.1 h
  exact List.all_eq_true.1 hops line hl

/-- Of the host's operations only a branch to no line lacks a step (30_encoding.md R126). -/
theorem hostOp_proceeds {op : HostOp} {s : State} (h : op.wf s.host.prog = true) : ∃ t, hostOp op s = .next t := by
  cases op with
  | write | read | bufWrite | bufRead | blank => exact ⟨_, rfl⟩
  | bz x mask l =>
    obtain ⟨p, hp⟩ := exists_findLabel h
    by_cases htaken : s.host.var x &&& mask = 0
    · exact ⟨{ s with host := { s.host with pc := p } }, by simp only [hostOp, if_pos htaken, hp]⟩
    · exact ⟨_, if_neg htaken⟩

theorem hostMove_proceeds {s : State} (h : progWf s.host.prog = true) : ∃ t, hostMove s = .next t := by
  cases hline : s.host.prog[s.host.pc]? with
  | none => exact ⟨s, by simp only [hostMove, hline]⟩
  | some line =>
    obtain ⟨t, ht⟩ := hostOp_proceeds (progWf_op h (List.mem_of_getElem? hline))
    exact ⟨t, by simp only [hostMove, hline, ht]⟩

/-- Settles O52, by whose move it is: the core proceeds by the sink's duty, the host by its program, and reset always does. -/
theorem machineProceeds : Obligations.MachineProceeds := by
  intro s hs hduty hprog
  unfold Proceeds
  rw [step_eq]
  cases s.takeMove.1 with
  | core => exact coreMove_proceeds (s := { s with sched := s.sched.tail }) hs.blk hduty
  | host => exact hostMove_proceeds (s := { s with sched := s.sched.tail }) hprog
  | reset => exact ⟨_, rfl⟩

end Sys2Proof.Machine
end

section
/-! The wire format (30_encoding.md R100 to R110): the canonical length by range, the canonical encoding byte by byte, leading zero
groups, and sequences of ten bytes. -/

namespace Sys2Proof.Machine

/-! ## The canonical length (R104, R105) -/

/-- A value of `k ≥ 2` groups fits in `k` groups and not in `k - 1`. -/
theorem sdnvLen_eq_iff (x k : Nat) (hk : 2 ≤ k) : sdnvLen x = k ↔ 2 ^ (7 * (k - 1)) ≤ x ∧ x < 2 ^ (7 * k) := by
  have hle := sdnvLen_le_iff x k (by omega)
  have hlt := sdnvLen_le_iff x (k - 1) (by omega)
  omega

/-- Settles O4: the length is the least number of groups that hold the value, and 64 bits take ten. -/
theorem lengthByRange : Obligations.LengthByRange := by
  intro x hx
  have hpos := sdnvLen_pos x
  have hten := sdnvLen_le_ten x hx
  refine ⟨?_, fun k hk _ => sdnvLen_eq_iff x k hk, ?_, hpos, hten⟩
  · have hone := sdnvLen_le_iff x 1 le_rfl
    omega
  · have hnine := sdnvLen_le_iff x 9 (by omega)
    omega

/-! ## A byte is its flag and its group (R100) -/

theorem byte_toNat_of_continues {b : Byte} (h : continues b = true) : b.toNat = 128 + (groupBits b).toNat := by
  have hflag := (continues_iff b).1 h
  have hlt := b.isLt
  rw [groupBits_toNat]
  omega

/-! ## The canonical encoding (R106) -/

theorem wireByte_eq_ofNat (x len j : Nat) :
    wireByte x len j =
      BitVec.ofNat 8 ((if j < len - 1 then 0x80 else 0x00) ||| ((x >>> (7 * (len - 1 - j))) &&& 0x7f)) := by
  rw [wireByte, group, BitVec.ofNat_or]
  split <;> rfl

/-- The flagged bytes of an encoding, and its last byte. -/
theorem sdnvEncode_eq_concat (x : Nat) :
    sdnvEncode x = (List.range (sdnvLen x - 1)).map (wireByte x (sdnvLen x)) ++
      [wireByte x (sdnvLen x) (sdnvLen x - 1)] := by
  have hlen : sdnvLen x = sdnvLen x - 1 + 1 := (Nat.sub_add_cancel (sdnvLen_pos x)).symm
  conv_lhs => rw [sdnvEncode, hlen, List.range_succ, ← hlen]
  rw [List.map_append, List.map_singleton]

theorem isComplete_sdnvEncode (x : Nat) : isComplete (sdnvEncode x) = true := by
  refine (isComplete_iff _).2 ⟨_, _, sdnvEncode_eq_concat x, ?_, by simp [continues_wireByte]⟩
  intro b hb
  obtain ⟨j, hj, rfl⟩ := List.mem_map.1 hb
  rw [continues_wireByte]
  exact decide_eq_true (List.mem_range.1 hj)

theorem sdnvEncode_head? (x : Nat) : (sdnvEncode x).head? = some (wireByte x (sdnvLen x) 0) := by
  rw [List.head?_eq_getElem?, sdnvEncode_getElem? x 0 (sdnvLen_pos x)]

/-- The first byte carries the value's top group. -/
theorem groupBits_wireByte_zero (x : Nat) :
    (groupBits (wireByte x (sdnvLen x) 0)).toNat = x / 128 ^ (sdnvLen x - 1) := by
  have htop := sdnvValue_take_encode x 1 (sdnvLen_pos x)
  rwa [List.take_one, sdnvEncode_head?, Option.toList_some, sdnvValue_singleton] at htop

/-- The first of several bytes is flagged. -/
theorem wireByte_zero_toNat {x : Nat} (hx : 2 ≤ sdnvLen x) :
    (wireByte x (sdnvLen x) 0).toNat = 128 + x / 128 ^ (sdnvLen x - 1) := by
  have hflag : continues (wireByte x (sdnvLen x) 0) = true := by
    rw [continues_wireByte]
    exact decide_eq_true (by omega)
  rw [byte_toNat_of_continues hflag, groupBits_wireByte_zero]

/-- No encoding begins with an empty group (R107): one byte has no flag, and the top group of more is not 0. -/
theorem wireByte_zero_ne (x : Nat) : wireByte x (sdnvLen x) 0 ≠ 0x80 := by
  intro h
  have hflag : continues (wireByte x (sdnvLen x) 0) = true := by rw [h]; rfl
  rw [continues_wireByte, decide_eq_true_eq] at hflag
  have hfirst := wireByte_zero_toNat (x := x) (by omega)
  obtain ⟨hlow, -⟩ := (sdnvLen_eq_iff x (sdnvLen x) (by omega)).1 rfl
  rw [Nat.pow_mul] at hlow
  have htop : 0 < x / 128 ^ (sdnvLen x - 1) := Nat.div_pos hlow (by positivity)
  have h128 : (wireByte x (sdnvLen x) 0).toNat = 128 := by rw [h]; rfl
  omega

/-- Settles O5: the bytes are `wireByte`'s; all are flagged but the last; the first is not an empty group. -/
theorem encodingIsCanonical : Obligations.EncodingIsCanonical := by
  intro x
  refine ⟨fun j hj => ?_, isComplete_sdnvEncode x, ?_, rfl⟩
  · rw [sdnvEncode_getElem? x j hj, wireByte_eq_ofNat]
  · rw [sdnvEncode_head?]
    exact fun h => wireByte_zero_ne x (Option.some.inj h)

/-- Settles O6: the value of the first `j` bytes of an encoding, at `j` its length. -/
theorem wireRoundTrip : Obligations.WireRoundTrip := by
  intro x
  have hall := sdnvValue_take_encode x (sdnvLen x) le_rfl
  rw [List.take_of_length_le (sdnvEncode_length x).le, Nat.sub_self, pow_zero, Nat.div_one] at hall
  exact ⟨hall, sdnvEncode_length x⟩

/-! ## Leading zero groups (R107, R108) -/

theorem isComplete_zeroGroup_cons {s : List Byte} (hs : isComplete s = true) : isComplete (0x80 :: s) = true := by
  have hne : s ≠ [] := by rintro rfl; cases hs
  rw [isComplete_cons _ s hne, hs]
  rfl

theorem sdnvValue_zeroGroup_cons (s : List Byte) : sdnvValue (0x80 :: s) = sdnvValue s := by
  have hgroup : (groupBits 0x80).toNat = 0 := rfl
  rw [sdnvValue_cons, hgroup, Nat.zero_mul, Nat.zero_add]

/-- Settles O7, by induction on the number of bytes 0x80. -/
theorem leadingZeroGroupsKeepValue : Obligations.LeadingZeroGroupsKeepValue := by
  intro k s hs
  induction k with
  | zero => exact ⟨hs, rfl⟩
  | succ k ih =>
    obtain ⟨hcomplete, hvalue⟩ := ih
    rw [List.replicate_succ, List.cons_append]
    exact ⟨isComplete_zeroGroup_cons hcomplete, (sdnvValue_zeroGroup_cons _).trans hvalue⟩

/-! ## Ten bytes (R110) -/

/-- The value of ten bytes is the first group, and nine groups below it. -/
theorem sdnvValue_ten (b : Byte) {s : List Byte} (hs : s.length = 9) :
    sdnvValue s < 2 ^ 63 ∧ sdnvValue (b :: s) = (groupBits b).toNat * 2 ^ 63 + sdnvValue s := by
  have hlt := sdnvValue_lt s
  have hcons := sdnvValue_cons b s
  rw [hs] at hlt hcons
  exact ⟨hlt, hcons⟩

/-- Settles O8: the value fits in 64 bits when the first group is at most 1; and the top group of a 64-bit value of length 10 is 1. -/
theorem tenByteSequences : Obligations.TenByteSequences := by
  constructor
  · intro s b hcomplete hlen hhead
    obtain ⟨t, rfl⟩ := List.head?_eq_some_iff.1 hhead
    have ht : t.length = 9 := by simpa using hlen
    have hflag : continues b = true := by
      rw [isComplete_cons b t (List.ne_nil_of_length_eq_add_one ht), Bool.and_eq_true] at hcomplete
      exact hcomplete.1
    obtain ⟨hlow, hvalue⟩ := sdnvValue_ten b ht
    refine ⟨⟨_, hlow, hvalue⟩, ?_⟩
    have hb := byte_toNat_of_continues hflag
    rw [hvalue, ← BitVec.toNat_inj, ← BitVec.toNat_inj]
    change _ ↔ b.toNat = 128 ∨ b.toNat = 129
    omega
  · intro x hx hlen
    obtain ⟨hlow, -⟩ := (sdnvLen_eq_iff x 10 (by omega)).1 hlen
    have htop := wireByte_zero_toNat (x := x) (by omega)
    rw [hlen] at htop
    rw [sdnvEncode_head?, hlen]
    refine congrArg some (BitVec.eq_of_toNat_eq ?_)
    change _ = 129
    omega

end Sys2Proof.Machine
end

section
/-! The command words (30_encoding.md R120 to R124): the table, the decoder against the encoder, and the illegal words. -/

namespace Sys2Proof.Machine

/-- Settles O1: the five rows of R120, evaluated. -/
theorem tableWordsDecode : Obligations.TableWordsDecode := by
  refine ⟨?_, ?_, ?_, ?_, ?_⟩ <;> decide

theorem decode_encode (i : Instr) : decode (encode i) = .ok i := by
  cases i with
  | enc => exact Laws.Roundtrip.enc.1
  | dec => exact Laws.Roundtrip.dec.1
  | wrb => exact Laws.Roundtrip.wrb.1
  | wrs => exact Laws.Roundtrip.wrs.1
  | rd => exact Laws.Roundtrip.rd.1

/-- Settles O2: the round trip of each command, and that the decoder takes a command's own word only. -/
theorem decodeEncodeAgree : Obligations.DecodeEncodeAgree :=
  ⟨fun i _ => decode_encode i, fun _ _ h => decode_eq_ok_encode h⟩

theorem op_unassigned_iff (op : BitVec 3) :
    (op = 0b000 ∨ op = 0b101 ∨ op = 0b110 ∨ op = 0b111) ↔
      op ≠ 0b001 ∧ op ≠ 0b010 ∧ op ≠ 0b011 ∧ op ≠ 0b100 := by
  revert op; decide

/-- R124: an OP without a command, a reserved bit, or WMODE on a command that does not write. -/
theorem decode_error_iff (w : Byte) :
    (∃ e, decode w = .error e) ↔
      (cmdOp w = 0b000 ∨ cmdOp w = 0b101 ∨ cmdOp w = 0b110 ∨ cmdOp w = 0b111) ∨ cmdRsvd w ≠ 0 ∨
        (cmdWmode w = 1 ∧ cmdOp w ≠ 0b011) := by
  rw [op_unassigned_iff]
  by_cases hrsvd : cmdRsvd w ≠ 0
  · exact iff_of_true ⟨_, if_pos hrsvd⟩ (.inr (.inl hrsvd))
  by_cases hmode : cmdWmode w = 1 ∧ cmdOp w ≠ 0b011
  · exact iff_of_true ⟨_, (if_neg hrsvd).trans (if_pos hmode)⟩ (.inr (.inr hmode))
  rw [decode, if_neg hrsvd, if_neg hmode]
  simp only [hrsvd, hmode, or_false]
  split_ifs <;> simp_all

/-- The five words of R120's table, as numbers. -/
def commandWords : Finset Nat := {0x01, 0x02, 0x03, 0x04, 0x0B}

theorem decode_isNone_iff (w : Byte) : (decode w).toOption.isNone = true ↔ w.toNat ∉ commandWords := by
  revert w; decide

theorem illegalWords_length :
    ((List.range 256).filter fun n => (decode (BitVec.ofNat 8 n)).toOption.isNone).length = 251 := by
  have hset : ((List.range 256).filter fun n => (decode (BitVec.ofNat 8 n)).toOption.isNone).toFinset =
      Finset.range 256 \ commandWords := by
    ext n
    rw [List.mem_toFinset, List.mem_filter, List.mem_range, Finset.mem_sdiff, Finset.mem_range]
    refine and_congr_right fun hn => ?_
    rw [decode_isNone_iff, BitVec.toNat_ofNat, Nat.mod_eq_of_lt hn]
  rw [← List.toFinset_card_of_nodup (List.nodup_range.filter _), hset, Finset.card_sdiff_of_subset (by decide),
    Finset.card_range]
  rfl

theorem Block.issue_of_illegal {b : Block} {w : Byte} {e : DecodeError} (hfault : b.status.fault = false)
    (hbusy : b.status.busy = false) (hw : decode w = .error e) : b.issue w = b.illegal := by
  simp only [Block.issue, hfault, hbusy, hw, Bool.false_eq_true, if_false]

/-- Settles O3: the decoder's conditions in turn, the 256 words counted, and the illegal branch of a CMD write. -/
theorem illegalWordsAre : Obligations.IllegalWordsAre := by
  refine ⟨fun w => ?_, illegalWords_length, fun b w e hfault hbusy hw => ?_⟩
  · simpa only [or_assoc] using decode_error_iff w
  · rw [Block.issue_of_illegal hfault hbusy hw]
    exact ⟨rfl, rfl, rfl⟩

end Sys2Proof.Machine
end

section
/-! Host programs (30_encoding.md R126, R127): the branch on zero, the pseudo-instructions, and one turn of a WAIT. -/

namespace Sys2Proof.Machine

/-! ## BZ (R126) -/

theorem HostAgent.var_of_get {h : HostAgent} {x : Nat} {v : Word} (hx : assocGet h.vars x = some v) : h.var x = v := by
  rw [HostAgent.var, hx, Option.getD_some]

theorem hostOp_bz_taken {s : State} {x p : Nat} {mask : Word} {l : Label} (hzero : s.host.var x &&& mask = 0)
    (hl : findLabel s.host.prog l = some p) :
    hostOp (.bz x mask l) s = .next { s with host := { s.host with pc := p } } := by
  simp only [hostOp, if_pos hzero, hl]

theorem hostOp_bz_not_taken {s : State} {x : Nat} {mask : Word} (l : Label) (hzero : s.host.var x &&& mask ≠ 0) :
    hostOp (.bz x mask l) s = .next { s with host := s.host.advance } := if_neg hzero

/-- The line found for a label carries it. -/
theorem findLabel_line {prog : List HostLine} {l : Label} {p : Nat} (h : findLabel prog l = some p) :
    ∃ line, prog[p]? = some line ∧ l ∈ line.labels := by
  obtain ⟨hp, hl, -⟩ := List.findIdx?_eq_some_iff_getElem.1 h
  exact ⟨prog[p], List.getElem?_eq_getElem hp, List.contains_iff_mem.1 hl⟩

/-- Settles O46: the two ways a branch goes, and the line its label is found on. -/
theorem branchOnZero : Obligations.BranchOnZero := by
  intro s x v mask l hx
  rw [← HostAgent.var_of_get hx]
  exact ⟨hostOp_bz_not_taken l, fun p hl hzero => ⟨hostOp_bz_taken hzero hl, findLabel_line hl⟩⟩

/-! ## The pseudo-instructions (R127) -/

theorem SrcOp.wf_bws_iff (i : Byte) (bs : List Byte) :
    (SrcOp.bws i bs).wf = true ↔ bs ≠ [] ∧ i.toNat + bs.length ≤ 256 := by
  simp [SrcOp.wf]

/-- Settles O47: each expansion as the definition gives it, and no index of a BWS wraps. -/
theorem pseudoInstructionsExpand : Obligations.PseudoInstructionsExpand := by
  refine ⟨fun _ => ⟨rfl, rfl, rfl, rfl, rfl⟩, fun _ _ => rfl, fun k i bs hwf => ⟨List.length_mapIdx, fun j b hj => ?_⟩⟩
  obtain ⟨-, hfits⟩ := (SrcOp.wf_bws_iff i bs).1 hwf
  obtain ⟨hlt, -⟩ := List.getElem?_eq_some_iff.1 hj
  refine ⟨i + BitVec.ofNat 8 j, ?_, ?_⟩
  · rw [BitVec.toNat_add, BitVec.toNat_ofNat]
    omega
  · rw [SrcOp.expand, List.getElem?_mapIdx, hj, Option.map_some]

/-! ## WAIT (R127) -/

/-- The host's move runs the line it is at. -/
theorem step_host_line {s : State} {ms : List Move} {line : HostLine} (hsched : s.sched = .host :: ms)
    (hline : s.host.prog[s.host.pc]? = some line) : step s = hostOp line.op { s with sched := ms } := by
  simp only [step_eq, State.takeMove_cons s _ _ hsched, hsched, List.tail_cons, hostMove, hline]

theorem Status.word_done_bit (s : Status) : s.word.getLsbD 1 = s.done := by
  rw [BitVec.getLsbD, Nat.testBit_eq_decide_div_mod_eq, Status.word_toNat]
  have hbusy := Bool.toNat_le s.busy
  cases s.done <;> simp only [Bool.toNat_true, Bool.toNat_false, decide_eq_true_eq, decide_eq_false_iff_not] <;> omega

/-- WAIT's mask is the DONE bit. -/
theorem Block.regRead_status_and_done (b : Block) : b.regRead 1 &&& 0x02 = 0 ↔ b.status.done = false := by
  have hbit : (b.regRead 1).getLsbD 1 = b.status.done := by
    rw [BitVec.getLsbD, b.regRead_status_toNat]
    exact b.status.word_done_bit
  have hmask : (0x02 : Word) = BitVec.twoPow 64 1 := rfl
  rw [hmask, BitVec.and_twoPow, hbit]
  cases b.status.done <;> decide

/-- After the read of STATUS into `x`, with the moves `ms` to come. -/
def State.polled (s : State) (x : Nat) (ms : List Move) : State :=
  { s with host := s.host.assign x (s.blk.regRead 1), trace := s.trace ++ [.regRead 1 (s.blk.regRead 1)], sched := ms }

theorem State.polled_get (s : State) (x : Nat) (ms : List Move) :
    assocGet (s.polled x ms).host.vars x = some (s.blk.regRead 1) := assocGet_assocSet_same _ _ _

/-- Settles O48: the read assigns STATUS, and the branch tests its DONE bit. -/
theorem waitPollsStatus : Obligations.WaitPollsStatus := by
  intro s x l ls ms hread hbz hlabel hsched
  have hpoll : step s = .next (s.polled x (.host :: ms)) := step_host_line hsched hread
  have hbranch := step_host_line (s := s.polled x (.host :: ms)) rfl hbz
  have hget := s.polled_get x ms
  have hzero := s.blk.regRead_status_and_done
  rw [← HostAgent.var_of_get hget] at hzero
  rw [run_succ 1 s _ hpoll]
  cases hdone : s.blk.status.done with
  | true =>
    have hgoes := hostOp_bz_not_taken l (s := s.polled x ms) (mask := 0x02) (by rw [Ne, hzero, hdone]; decide)
    exact ⟨_, run_one _ _ (hbranch.trans hgoes), rfl, hget, rfl, rfl⟩
  | false =>
    have hback := hostOp_bz_taken (s := s.polled x ms) (hzero.2 hdone) hlabel
    exact ⟨_, run_one _ _ (hbranch.trans hback), rfl, hget, rfl, rfl⟩

end Sys2Proof.Machine
end

section
/-! Sequences of bytes and the checked datapath (40_codec_core.md R144 to R149): every sequence begins with a complete SDNV that
the width checks accept, or with ten bytes that overflow, or is at most nine flagged bytes; and what `absorb` makes of each. -/

namespace Sys2Proof.Machine

/-! ## The exact condition of Overflow (R145, R146) -/

/-- Settles O9: when the condition fails, the byte is flagged before the 10th, which is `More`, or unflagged, which is `Done`. -/
theorem absorbOverflowsExactly : Obligations.AbsorbOverflowsExactly := by
  intro acc n first b _
  refine ⟨fun h => ?_, absorb_overflow⟩
  by_contra hcond
  cases hb : continues b with
  | true =>
    have hn : n ≠ 9 := fun hn => hcond ⟨hn, .inl hb⟩
    rw [absorb_more hn hb] at h
    cases h
  | false =>
    have hn : n ≠ 9 ∨ first = 0x81 := by
      by_contra hneither
      obtain ⟨hnine, hfirst⟩ := not_or.1 hneither
      exact hcond ⟨not_not.1 hnine, .inr hfirst⟩
    rw [absorb_done hn hb] at h
    cases h

/-! ## The sequences the width checks accept and reject, by their last byte -/

theorem firstAfter_concat_eq_iff (p : List Byte) (b x : Byte) :
    firstAfter 0 (p ++ [b]) = x ↔ (p ++ [b]).head? = some x := by
  cases p <;> simp [firstAfter]

theorem accepted_iff (s : List Byte) :
    accepted s = true ↔ ∃ p b, s = p ++ [b] ∧ (∀ x ∈ p, continues x = true) ∧ continues b = false ∧
      (p.length ≤ 8 ∨ p.length = 9 ∧ firstAfter 0 (p ++ [b]) = 0x81) := by
  have hwidth : ∀ (p : List Byte) (b : Byte),
      (decide ((p ++ [b]).length < 10) || (decide ((p ++ [b]).length = 10) && decide ((p ++ [b]).head? = some 0x81))) = true ↔
        p.length ≤ 8 ∨ p.length = 9 ∧ firstAfter 0 (p ++ [b]) = 0x81 := by
    intro p b
    rw [firstAfter_concat_eq_iff, Bool.or_eq_true, Bool.and_eq_true, decide_eq_true_eq, decide_eq_true_eq,
      decide_eq_true_eq, List.length_append, List.length_singleton]
    exact or_congr (by omega) (and_congr_left fun _ => by omega)
  rw [accepted, Bool.and_eq_true, isComplete_iff]
  constructor
  · rintro ⟨⟨p, b, rfl, hp, hb⟩, hw⟩
    exact ⟨p, b, rfl, hp, hb, (hwidth p b).1 hw⟩
  · rintro ⟨p, b, rfl, hp, hb, hw⟩
    exact ⟨⟨p, b, rfl, hp, hb⟩, (hwidth p b).2 hw⟩

theorem overflows_concat_iff (p : List Byte) (b : Byte) :
    overflows (p ++ [b]) = true ↔ p.length = 9 ∧ (∀ x ∈ p, continues x = true) ∧
      (continues b = true ∨ firstAfter 0 (p ++ [b]) ≠ 0x81) := by
  rw [Ne, firstAfter_concat_eq_iff, overflows, Bool.and_eq_true, Bool.and_eq_true, Bool.or_eq_true, and_assoc,
    decide_eq_true_eq, decide_eq_true_eq, List.length_append, List.length_singleton]
  refine (and_congr_left' (by omega)).trans (and_congr_right fun hlen => ?_)
  rw [List.take_left' hlen, List.all_eq_true, List.getLast?_concat, Option.map_some, beq_iff_eq, Option.some.injEq]

theorem overflows_iff (s : List Byte) :
    overflows s = true ↔ ∃ p b, s = p ++ [b] ∧ p.length = 9 ∧ (∀ x ∈ p, continues x = true) ∧
      (continues b = true ∨ firstAfter 0 (p ++ [b]) ≠ 0x81) := by
  constructor
  · intro h
    rcases List.eq_nil_or_concat' s with rfl | ⟨p, b, rfl⟩
    · cases h
    · exact ⟨p, b, rfl, (overflows_concat_iff p b).1 h⟩
  · rintro ⟨p, b, rfl, h⟩
    exact (overflows_concat_iff p b).2 h

theorem isComplete_of_accepted {s : List Byte} (h : accepted s = true) : isComplete s = true := (Bool.and_eq_true_iff.1 h).1

theorem length_of_accepted {s : List Byte} (h : accepted s = true) : 1 ≤ s.length ∧ s.length ≤ 10 := by
  obtain ⟨p, b, rfl, -, -, hw⟩ := (accepted_iff s).1 h
  rw [List.length_append, List.length_singleton]
  omega

/-- R110: the width checks let through 64-bit values only. -/
theorem sdnvValue_lt_of_accepted {s : List Byte} (h : accepted s = true) : sdnvValue s < 2 ^ 64 := by
  obtain ⟨p, b, hs, -, -, hw⟩ := (accepted_iff s).1 h
  have hlen : s.length = p.length + 1 := by rw [hs, List.length_append, List.length_singleton]
  rcases hw with hp | ⟨hp, hfirst⟩
  · exact sdnvValue_lt_of_length s (by omega)
  · rw [firstAfter_concat_eq_iff, ← hs] at hfirst
    obtain ⟨-, hfits⟩ := tenByteSequences.1 s 0x81 (isComplete_of_accepted h) (by omega) hfirst
    exact hfits.2 (.inr rfl)

theorem length_of_overflows {s : List Byte} (h : overflows s = true) : s.length = 10 := by
  obtain ⟨p, b, rfl, hp, -⟩ := (overflows_iff s).1 h
  rw [List.length_append, List.length_singleton, hp]

/-- The canonical encoding of a 64-bit value passes the width checks (R110). -/
theorem accepted_sdnvEncode {x : Nat} (hx : x < 2 ^ 64) : accepted (sdnvEncode x) = true := by
  have hten := sdnvLen_le_ten x hx
  rw [accepted, isComplete_sdnvEncode, sdnvEncode_length, Bool.true_and]
  rcases hten.lt_or_eq with hlt | heq
  · rw [decide_eq_true hlt, Bool.true_or]
  · rw [tenByteSequences.2 x hx heq, heq]
    rfl

/-! ## Every sequence is one of three -/

theorem accepted_or_overflows_or_flagged (s : List Byte) :
    (∃ p, p <+: s ∧ accepted p = true) ∨ (∃ p, p <+: s ∧ overflows p = true) ∨
      (s.length ≤ 9 ∧ ∀ x ∈ s, continues x = true) := by
  have hs := s.take_append_drop 10
  rcases flagged_split (s.take 10) with hall | ⟨p, b, t, hsplit, hp, hb⟩
  · by_cases hlen : s.length ≤ 9
    · rw [List.take_of_length_le (by omega)] at hall
      exact .inr (.inr ⟨hlen, hall⟩)
    · have hten : (s.take 10).length = 10 := List.length_take_of_le (by omega)
      obtain ⟨p, b, hsplit⟩ := (List.eq_nil_or_concat' (s.take 10)).resolve_left (List.ne_nil_of_length_eq_add_one hten)
      rw [hsplit, List.forall_mem_append, List.forall_mem_singleton] at hall
      rw [hsplit, List.length_append, List.length_singleton] at hten
      exact .inr (.inl ⟨s.take 10, List.take_prefix 10 s,
        (overflows_iff _).2 ⟨p, b, hsplit, by omega, hall.1, .inl hall.2⟩⟩)
  · have hprefix : p ++ [b] <+: s :=
      ⟨t ++ s.drop 10, by rw [← List.append_assoc, List.append_assoc p, List.singleton_append, ← hsplit, hs]⟩
    have hlen : p.length ≤ 9 := by
      have hle := List.length_take_le 10 s
      rw [hsplit, List.length_append, List.length_cons] at hle
      omega
    by_cases hover : p.length = 9 ∧ firstAfter 0 (p ++ [b]) ≠ 0x81
    · exact .inr (.inl ⟨_, hprefix, (overflows_iff _).2 ⟨p, b, rfl, hover.1, hp, .inr hover.2⟩⟩)
    · refine .inl ⟨_, hprefix, (accepted_iff _).2 ⟨p, b, rfl, hp, hb, ?_⟩⟩
      rcases hlen.lt_or_eq with hlt | heq
      · exact .inl (by omega)
      · exact .inr ⟨heq, not_not.1 fun hfirst => hover ⟨heq, hfirst⟩⟩

/-! ## `absorb` over each of them (R147 to R149) -/

theorem absorbSeq_of_accepted {p s : List Byte} (hprefix : p <+: s) (h : accepted p = true) :
    absorbSeq 0 0 0 s = .done (BitVec.ofNat 64 (sdnvValue p)) (BitVec.ofNat 8 p.length) := by
  obtain ⟨t, rfl⟩ := hprefix
  obtain ⟨q, b, rfl, hq, hb, hw⟩ := (accepted_iff p).1 h
  have hfits : ¬(q.length = 9 ∧ (continues b = true ∨ firstAfter 0 (q ++ [b]) ≠ 0x81)) := by
    rintro ⟨hlen, hflag | hfirst⟩
    · rw [hb] at hflag; cases hflag
    · exact hfirst (hw.resolve_left (by omega)).2
  rw [List.append_assoc, List.singleton_append, absorbSeq_last q b t hq (by omega), if_neg hfits, if_neg (by simp [hb]),
    List.length_append, List.length_singleton]

theorem absorbSeq_of_overflows {p s : List Byte} (hprefix : p <+: s) (h : overflows p = true) :
    absorbSeq 0 0 0 s = .overflow := by
  obtain ⟨t, rfl⟩ := hprefix
  obtain ⟨q, b, rfl, hlen, hq, hcause⟩ := (overflows_iff p).1 h
  rw [List.append_assoc, List.singleton_append, absorbSeq_last q b t hq hlen.le, if_pos ⟨hlen, hcause⟩]

theorem absorbSeq_of_flagged {s : List Byte} (hs : ∀ x ∈ s, continues x = true) (hlen : s.length ≤ 9) :
    absorbSeq 0 0 0 s = .more (BitVec.ofNat 64 (sdnvValue s)) (BitVec.ofNat 8 s.length) (firstAfter 0 s) := by
  have h := absorbSeq_flagged_zero s [] hs hlen
  rwa [List.append_nil] at h

/-- Settles O10: of the three kinds of sequence only one that begins with an accepted SDNV ends in `Done`, with its value. -/
theorem doneValueIsSequenceValue : Obligations.DoneValueIsSequenceValue := by
  intro s a k h
  rcases accepted_or_overflows_or_flagged s with ⟨p, hprefix, hp⟩ | ⟨p, hprefix, hp⟩ | ⟨hlen, hflagged⟩
  · rw [absorbSeq_of_accepted hprefix hp] at h
    cases h
    rw [ofNat8_toNat_of_le_ten (length_of_accepted hp).2, ← List.prefix_iff_eq_take.1 hprefix, BitVec.toNat_ofNat]
    exact ⟨hprefix.length_le, isComplete_of_accepted hp, Nat.mod_eq_of_lt (sdnvValue_lt_of_accepted hp)⟩
  · rw [absorbSeq_of_overflows hprefix hp] at h
    cases h
  · rw [absorbSeq_of_flagged hflagged hlen] at h
    cases h

end Sys2Proof.Machine
end

section
/-! ENC (40_codec_core.md R140 to R142) in every state. -/

namespace Sys2Proof.Machine

theorem Block.enc_of_lt {b : Block} (h : b.bufLen.toNat < sdnvLen b.value.toNat) : b.enc = b.finish .bufferTooSmall 0 :=
  if_pos h

theorem Block.enc_of_le {b : Block} (h : sdnvLen b.value.toNat ≤ b.bufLen.toNat) :
    b.enc = { b with buf := b.buf.writeFrom 0 (sdnvEncode b.value.toNat) }.finish .ok
      (BitVec.ofNat 8 (sdnvLen b.value.toNat)) :=
  if_neg (Nat.not_lt.2 h)

theorem exec_enc (s : State) : exec .enc s = .next { s with blk := s.blk.enc } := rfl

/-- BUF after the encoding is written holds it from index 0. -/
theorem Memory.get_writeFrom_encode (m : Memory) {x j : Nat} (hj : j < sdnvLen x) :
    assocGet (m.writeFrom 0 (sdnvEncode x)) j = (sdnvEncode x)[j]? := by
  have h := Memory.get_writeFrom_inside m 0 (sdnvEncode x) j (by rwa [sdnvEncode_length])
  rwa [Nat.zero_add] at h

theorem Memory.get_writeFrom_encode_above (m : Memory) {x j : Nat} (hj : sdnvLen x ≤ j) :
    assocGet (m.writeFrom 0 (sdnvEncode x)) j = assocGet m j :=
  Memory.get_writeFrom_outside m 0 _ j (.inr (by rwa [sdnvEncode_length, Nat.zero_add]))

/-- Settles O11: the branch with capacity, and what BUF holds below the length and above it. -/
theorem encWritesEncoding : Obligations.EncWritesEncoding := by
  intro s hcap
  refine ⟨s.blk.buf.writeFrom 0 (sdnvEncode s.blk.value.toNat), ?_, fun j hj => Memory.get_writeFrom_encode _ hj,
    fun j hj => Memory.get_writeFrom_encode_above _ hj,
    fun j d hj => Memory.byteAt_congr (Memory.get_writeFrom_encode_above _ hj) d⟩
  rw [exec_enc, Block.enc_of_le hcap]
  rfl

/-- Settles O12: the two branches of ENC, and a 64-bit value takes at most ten bytes. -/
theorem encTooSmallExactly : Obligations.EncTooSmallExactly := by
  intro s
  refine ⟨_, exec_enc s, ?_⟩
  have hten := sdnvLen_word_le_ten s.blk.value
  rcases Nat.lt_or_ge s.blk.bufLen.toNat (sdnvLen s.blk.value.toNat) with hsmall | hcap
  · rw [Block.enc_of_lt hsmall]
    exact ⟨iff_of_true rfl hsmall, fun _ => by omega, fun _ => rfl⟩
  · rw [Block.enc_of_le hcap]
    have hnot := Nat.not_lt.2 hcap
    exact ⟨iff_of_false (by simp) hnot, fun _ => rfl, fun h => absurd h hnot⟩

end Sys2Proof.Machine
end

section
/-! DEC (40_codec_core.md R150 to R163) in every state: what it reads of BUF, how the checked decoder ends by the sequence it
reads, how the LEGACY decoder ends, and the two policies together. -/

namespace Sys2Proof.Machine

/-! ## The bytes DEC may read -/

/-- What this step's reads of BUF[0..BUF_LEN-1] give. -/
def State.bufBytes (s : State) : List Byte := (List.range s.blk.bufLen.toNat).map s.bufReads

@[simp] theorem State.bufBytes_length (s : State) : s.bufBytes.length = s.blk.bufLen.toNat := by
  rw [State.bufBytes, List.length_map, List.length_range]

theorem State.bufBytes_getElem? {s : State} {j : Nat} (hj : j < s.blk.bufLen.toNat) :
    s.bufBytes[j]? = some (s.bufReads j) := by
  rw [State.bufBytes, List.getElem?_map, List.getElem?_range hj, Option.map_some]

/-- A sequence that BUF holds within BUF_LEN is where DEC's reads begin. -/
theorem prefix_bufBytes {s : State} {bs : List Byte} (hbs : BufHolds s bs) (hlen : bs.length ≤ s.blk.bufLen.toNat) :
    bs <+: s.bufBytes := by
  refine List.prefix_iff_getElem?.2 fun j hj => ?_
  rw [State.bufBytes_getElem? (by omega), ← List.getElem?_eq_getElem hj]
  exact (hbs j hj).symm

/-- A sequence as long as BUF_LEN that BUF holds is all that DEC may read. -/
theorem eq_bufBytes_of_length {s : State} {bs : List Byte} (hbs : BufHolds s bs) (hlen : bs.length = s.blk.bufLen.toNat) :
    bs = s.bufBytes :=
  (prefix_bufBytes hbs hlen.le).eq_of_length (hlen.trans s.bufBytes_length.symm)

/-! ## DEC's next state, from what the decoder makes of the block -/

theorem exec_dec (s : State) :
    exec .dec s = .next { s with blk := s.blk.dec s.bufReads, draws := s.draws + 1 } := rfl

theorem decFinishes_of_dec {s : State} {c : ErrCode} {k : Nat} {v acc : Word} {n first : Byte}
    (h : s.blk.dec s.bufReads =
      { { s.blk with value := v }.finish c (BitVec.ofNat 8 k) with acc := acc, n := n, first := first }) :
    DecFinishes s c k v := by
  refine ⟨acc, n, first, ?_⟩
  rw [exec_dec, h]
  rfl

/-! ## The checked decoder (R150, R151), by the result of absorbing the bytes -/

section
variable {s : State} (hp : s.blk.cfg.policy = .checked)
include hp

theorem dec_checked_eq : ∃ acc n first, s.blk.dec s.bufReads =
    { s.blk.endDecode (absorbSeq 0 0 0 s.bufBytes) with acc := acc, n := n, first := first } := by
  simp only [Block.dec, hp]
  exact decChecked_eq s.bufReads s.blk

theorem decFinishes_of_accepted {p : List Byte} (hprefix : p <+: s.bufBytes) (ha : accepted p = true) :
    DecFinishes s .ok p.length (BitVec.ofNat 64 (sdnvValue p)) := by
  obtain ⟨acc, n, first, h⟩ := dec_checked_eq hp
  rw [absorbSeq_of_accepted hprefix ha] at h
  exact decFinishes_of_dec h

theorem decFinishes_of_overflows {p : List Byte} (hprefix : p <+: s.bufBytes) (ho : overflows p = true) :
    DecFinishes s .overflow64 10 s.blk.value := by
  obtain ⟨acc, n, first, h⟩ := dec_checked_eq hp
  rw [absorbSeq_of_overflows hprefix ho] at h
  exact decFinishes_of_dec h

/-- Flagged bytes to the end of the buffer (R151). -/
theorem decFinishes_of_flagged (hlen : s.bufBytes.length ≤ 9) (hflagged : ∀ x ∈ s.bufBytes, continues x = true) :
    (s.bufBytes = [] → DecFinishes s .endOfInput 0 s.blk.value) ∧
      (s.bufBytes ≠ [] → DecFinishes s .unexpectedEndOfInput s.bufBytes.length s.blk.value) := by
  obtain ⟨acc, n, first, h⟩ := dec_checked_eq hp
  rw [absorbSeq_of_flagged hflagged hlen, Block.endDecode] at h
  constructor
  · intro hnil
    rw [hnil] at h
    exact decFinishes_of_dec h
  · intro hne
    have hzero : BitVec.ofNat 8 s.bufBytes.length ≠ 0 := by
      intro hz
      have hnat := congrArg BitVec.toNat hz
      rw [ofNat8_toNat_of_le_ten (by omega)] at hnat
      exact hne (List.length_eq_zero_iff.1 hnat)
    rw [if_neg hzero] at h
    exact decFinishes_of_dec h

end

/-- Settles O13: the bytes BUF holds are where DEC's reads begin, and absorbing them ends in `Done`. -/
theorem decCheckedAccepts : Obligations.DecCheckedAccepts := fun _ _ hp ha hlen hbs =>
  ⟨decFinishes_of_accepted hp (prefix_bufBytes hbs hlen) ha, sdnvValue_lt_of_accepted ha⟩

/-- Settles O14: absorbing the ten bytes overflows. -/
theorem decCheckedOverflows : Obligations.DecCheckedOverflows := by
  intro s bs hp ho hlen hbs
  rw [← length_of_overflows ho] at hlen
  exact decFinishes_of_overflows hp (prefix_bufBytes hbs hlen) ho

/-- Settles O15: the bytes are all that DEC may read, and absorbing them leaves it wanting more. -/
theorem decCheckedEndOfBuffer : Obligations.DecCheckedEndOfBuffer := by
  intro s bs hp hlen hnine hflagged hbs
  obtain rfl := eq_bufBytes_of_length hbs hlen
  exact decFinishes_of_flagged hp hnine hflagged

/-- Settles O16: what BUF reads as is one of the three kinds of sequence, and its end of the buffer has two cases. -/
theorem decCheckedCompletes : Obligations.DecCheckedCompletes := by
  intro s hp
  have hbytes := s.bufBytes_length
  rcases accepted_or_overflows_or_flagged s.bufBytes with ⟨p, hprefix, ha⟩ | ⟨p, hprefix, ho⟩ | ⟨hnine, hflagged⟩
  · obtain ⟨hpos, hten⟩ := length_of_accepted ha
    have hle := hprefix.length_le
    exact .inl ⟨p.length, _, hpos, hten, by omega, decFinishes_of_accepted hp hprefix ha⟩
  · have hle := hprefix.length_le
    rw [length_of_overflows ho] at hle
    exact .inr (.inl ⟨by omega, decFinishes_of_overflows hp hprefix ho⟩)
  · obtain ⟨hend, htruncated⟩ := decFinishes_of_flagged hp hnine hflagged
    rw [hbytes] at hnine htruncated
    by_cases hnil : s.bufBytes = []
    · have hzero : s.blk.bufLen.toNat = 0 := by rw [← hbytes, hnil, List.length_nil]
      exact .inr (.inr (.inl ⟨BitVec.eq_of_toNat_eq hzero, hend hnil⟩))
    · have hpos := List.length_pos_of_ne_nil hnil
      exact .inr (.inr (.inr ⟨by omega, hnine, htruncated hnil⟩))

/-! ## The LEGACY decoder (R160 to R162) -/

/-- DEC clears ACC, N and FIRST as RD's Entry action does (10_state.md R51), and LEGACY then runs its loop to BUF_LEN. -/
theorem Block.dec_legacy {b : Block} (hp : b.cfg.policy = .legacy) (rd : Nat → Byte) :
    b.dec rd = decLegacyLoop rd b.bufLen.toNat b.entryRd := by
  simp only [Block.dec, hp]
  rfl

/-- The loop's `j`-th read is of BUF[j]. -/
theorem Block.entryRd_n_add (b : Block) (j : Nat) : b.entryRd.n.toNat + j = j := Nat.zero_add j

/-- The loop counts from 0. -/
theorem Block.entryRd_n_add_byte (b : Block) (k : Byte) : b.entryRd.n + k = k := BitVec.zero_add k

theorem Block.entryRd_n_add_bufLen_le (b : Block) : b.entryRd.n.toNat + b.bufLen.toNat ≤ 255 := by
  rw [b.entryRd_n_add]
  exact Nat.le_of_lt_succ b.bufLen.isLt

/-- Settles O17: the loop over the flagged bytes and the unflagged one that a complete SDNV is, from ACC 0. -/
theorem decLegacyWraps : Obligations.DecLegacyWraps := by
  intro s bs hp hcomplete hlen hbs
  obtain ⟨p, x, rfl, hflagged, hx⟩ := (isComplete_iff bs).1 hcomplete
  have hlast : (p ++ [x]).length = p.length + 1 := List.length_append
  rw [hlast] at hlen ⊢
  obtain ⟨acc, n, first, h⟩ := decLegacyLoop_done s.bufReads s.blk.bufLen.toNat s.blk.entryRd p x 0 hflagged hx hlen
    (fun j hj => by rw [s.blk.entryRd_n_add]; exact hbs j (hj.trans_eq hlast.symm)) s.blk.entryRd_n_add_bufLen_le rfl
  have hwrap : BitVec.ofNat 64 (sdnvValue (p ++ [x])) = BitVec.ofNat 64 (sdnvValue (p ++ [x]) % 2 ^ 64) :=
    BitVec.eq_of_toNat_eq (by simp only [BitVec.toNat_ofNat, Nat.mod_mod])
  rw [← Block.dec_legacy hp, Nat.zero_mul, Nat.zero_add, hwrap, s.blk.entryRd_n_add_byte] at h
  exact decFinishes_of_dec h

/-- Settles O18: the loop over flagged bytes alone. -/
theorem decLegacyFaults : Obligations.DecLegacyFaults := by
  intro s bs hp hlen hflagged hbs
  obtain ⟨acc, n, first, h⟩ := decLegacyLoop_fault s.bufReads s.blk.bufLen.toNat s.blk.entryRd
    s.blk.entryRd_n_add_bufLen_le fun j hj => by
      rw [s.blk.entryRd_n_add]
      exact hflagged _ (List.mem_of_getElem? (hbs j (hj.trans_eq hlen.symm)))
  rw [← Block.dec_legacy hp, s.blk.entryRd_n_add_byte, BitVec.ofNat_toNat, BitVec.setWidth_eq] at h
  exact ⟨acc, n, first, by rw [exec_dec, h]; rfl⟩

/-! ## The two policies (R163) -/

/-- On what CHECKED accepts, either policy decodes the value and length. -/
theorem decFinishes_of_accepted_any_policy {s : State} {bs : List Byte} (ha : accepted bs = true)
    (hlen : bs.length ≤ s.blk.bufLen.toNat) (hbs : BufHolds s bs) :
    DecFinishes s .ok bs.length (BitVec.ofNat 64 (sdnvValue bs)) := by
  cases hp : s.blk.cfg.policy with
  | checked => exact (decCheckedAccepts s bs hp ha hlen hbs).1
  | legacy =>
    have h := decLegacyWraps s bs hp (isComplete_of_accepted ha) hlen hbs
    rwa [Nat.mod_eq_of_lt (sdnvValue_lt_of_accepted ha)] at h

/-- Settles O19: either policy ends with OK and the sequence's value and length. -/
theorem policiesAgree : Obligations.PoliciesAgree := by
  intro s bs ha hlen hbs
  have hdec : ∀ p : Policy,
      DecFinishes { s with blk := { s.blk with cfg := { s.blk.cfg with policy := p } } } .ok bs.length
        (BitVec.ofNat 64 (sdnvValue bs)) :=
    fun _ => decFinishes_of_accepted_any_policy ha hlen hbs
  obtain ⟨_, _, _, hchecked⟩ := hdec .checked
  obtain ⟨_, _, _, hlegacy⟩ := hdec .legacy
  exact ⟨_, _, hchecked, hlegacy, rfl, rfl, rfl, rfl⟩

end Sys2Proof.Machine
end

section
/-! ENC, then the host's DEC (40_codec_core.md R171): three steps of the machine. -/

namespace Sys2Proof.Machine

/-- A step that is the core's in a `RUN_x` phase is exec of that phase's command. -/
theorem step_core_run {s : State} {ms : List Move} {i : Instr} (hb : s.blk.Inv) (hp : s.blk.phase = runPhase i)
    (hsched : s.sched = .core :: ms) : step s = exec i { s with sched := ms } := by
  rw [step_eq, State.takeMove_cons s _ _ hsched, hsched, List.tail_cons]
  exact Block.Inv.coreMove_eq_exec (s := { s with sched := ms }) hb hp

/-- The host's write of DEC's word is accepted when neither FAULT nor BUSY is 1 (60_exceptions.md R266). -/
theorem Block.regWrite_dec {b : Block} (hfault : b.status.fault = false) (hbusy : b.status.busy = false) :
    b.regWrite 0 0x02 = b.accept 0x02 .dec := by
  have hd : decode 0x02 = .ok .dec := by decide
  show b.issue 0x02 = _
  simp only [Block.issue, hfault, hbusy, hd, Bool.false_eq_true, if_false]

/-- DEC of a BUF that begins with the encoding of a value, under either policy. -/
theorem decFinishes_of_encoding {s : State} {v : Word}
    (hbuf : ∀ j, j < sdnvLen v.toNat → assocGet s.blk.buf j = (sdnvEncode v.toNat)[j]?)
    (hcap : sdnvLen v.toNat ≤ s.blk.bufLen.toNat) : DecFinishes s .ok (sdnvLen v.toNat) v := by
  have hlen := sdnvEncode_length v.toNat
  have hholds : BufHolds s (sdnvEncode v.toNat) := fun j hj => by
    have hget := List.getElem?_eq_getElem hj
    rw [Memory.byteAt_of_get ((hbuf j (hj.trans_eq hlen)).trans hget), hget]
  have h := decFinishes_of_accepted_any_policy (accepted_sdnvEncode v.isLt) (hlen.trans_le hcap) hholds
  rwa [hlen, (wireRoundTrip v.toNat).1, BitVec.ofNat_toNat, BitVec.setWidth_eq] at h

/-- The host's DEC command, from an idle block whose BUF begins with the encoding of a value: two steps. -/
theorem run_dec_of_encoding {s : State} {line : HostLine} {ms : List Move} {v : Word} (hb : s.blk.Inv)
    (hbusy : s.blk.status.busy = false) (hfault : s.blk.status.fault = false)
    (hline : s.host.prog[s.host.pc]? = some line) (hop : line.op = .write 0 0x02) (hsched : s.sched = .host :: .core :: ms)
    (hbuf : ∀ j, j < sdnvLen v.toNat → assocGet s.blk.buf j = (sdnvEncode v.toNat)[j]?)
    (hcap : sdnvLen v.toNat ≤ s.blk.bufLen.toNat) :
    ∃ t, Sys2Proof.core.run 2 s = .next t ∧ t.blk.value = v ∧ t.blk.count = BitVec.ofNat 8 (sdnvLen v.toNat) ∧
      t.blk.status.err = .ok ∧ t.blk.status.done = true ∧ t.blk.bufLen = s.blk.bufLen := by
  have hwrite := step_host_line hsched hline
  rw [hop, hostOp, Block.regWrite_dec hfault hbusy] at hwrite
  have haccepted := step_blk_inv hb hwrite
  have hdec := step_core_run (i := .dec) haccepted rfl rfl
  obtain ⟨acc, n, first, hexec⟩ := decFinishes_of_encoding (s := { s with
    blk := s.blk.accept 0x02 .dec, host := s.host.advance, trace := s.trace ++ [.regWrite 0 0x02], sched := ms })
    (by rwa [Block.accept_buf]) (by rwa [Block.accept_bufLen])
  refine ⟨_, (run_succ 1 s _ hwrite).trans (run_one _ _ (hdec.trans hexec)), rfl, rfl, rfl, rfl,
    Block.accept_bufLen _ _ _⟩

/-- Settles O35: ENC leaves the encoding in BUF and VALUE as it was, and the host's DEC reads the encoding back. -/
theorem encThenDecRoundTrip : Obligations.EncThenDecRoundTrip := by
  intro s line ms hs hp hcap hline hop hsched
  have hfault := hs.blk.not_fault_of_run (by rw [hp]; rfl)
  obtain ⟨m, hexec, hbuf, -⟩ := encWritesEncoding { s with sched := .host :: .core :: ms } hcap
  have henc := (step_core_run (i := .enc) hs.blk hp hsched).trans hexec
  rw [run_succ 2 s _ henc]
  exact run_dec_of_encoding (step_blk_inv hs.blk henc) rfl hfault hline hop rfl hbuf hcap

end Sys2Proof.Machine
end

section
/-! One step of the streaming commands WRB, WRS and RD (41_streaming.md R200 to R232), and acceptance with the Entry actions
(60_exceptions.md R266). -/

namespace Sys2Proof.Machine

/-! ## WRB (R200, R201) -/

/-- Settles O20: the answer is within STAGE_LEN, so WRB has its step, and the step's ending follows the sink's result. -/
theorem wrbPassesAnswerThrough : Obligations.WrbPassesAnswerThrough := by
  intro s k r rest hbulk hk
  rw [exec_wrb_cons hbulk, if_pos hk]
  cases r with
  | ok => rfl
  | error e => rfl

/-! ## WRS (R210 to R212) -/

/-- Settles O23: on an `Error` answer the block's step of WRS is `finishIo` with COUNT = N. -/
theorem wrsStopsAtError : Obligations.WrsStopsAtError := by
  intro s e rest hsink
  rw [exec_wrs_cons hsink]
  rfl

section
variable {b : Block} (hb : b.Inv) (hp : b.phase = .runWrs)
include hb hp

theorem Block.Inv.n_lt_sdnvLen : b.n.toNat < sdnvLen b.value.toNat :=
  (hb.wrs_left hp).trans_eq (hb.staged_eq (.inr hp)).2

/-- In a running WRS `STAGE[N]` is byte N of VALUE's encoding. -/
theorem Block.Inv.encode_getElem?_n : (sdnvEncode b.value.toNat)[b.n.toNat]? = some b.stageByte := by
  have hlt : b.n.toNat < (sdnvEncode b.value.toNat).length := (hb.n_lt_sdnvLen hp).trans_eq (sdnvEncode_length _).symm
  rw [Block.stageByte_eq (hb.wrs_left hp), (hb.staged_eq (.inr hp)).1, List.getD_eq_getElem?_getD,
    List.getElem?_eq_getElem hlt, Option.getD_some]

/-- N + 1 reaches STAGE_LEN exactly with the last byte of the encoding. -/
theorem Block.Inv.wrs_last_iff : b.n + 1 = b.stageLen.setWidth 8 ↔ b.n.toNat + 1 = sdnvLen b.value.toNat := by
  have hlen := (hb.staged_eq (.inr hp)).2
  have hten := sdnvLen_word_le_ten b.value
  have hlt := hb.n_lt_sdnvLen hp
  rw [← BitVec.toNat_inj, byte_succ_toNat (by omega), BitVec.toNat_setWidth, hlen, Nat.mod_eq_of_lt (by omega)]

theorem Block.Inv.wrs_ok_more (h : b.n.toNat + 1 < sdnvLen b.value.toNat) : b.wrs .ok = { b with n := b.n + 1 } :=
  if_neg fun hlast => h.ne ((hb.wrs_last_iff hp).1 hlast)

theorem Block.Inv.wrs_ok_last (h : b.n.toNat + 1 = sdnvLen b.value.toNat) :
    b.wrs .ok = { b with n := b.n + 1 }.finish .ok (BitVec.ofNat 8 (sdnvLen b.value.toNat)) := by
  have hcount : b.n + 1 = BitVec.ofNat 8 (sdnvLen b.value.toNat) := by
    rw [← h, ← ofNat8_succ, BitVec.ofNat_toNat, BitVec.setWidth_eq]
  rw [← hcount]
  exact if_pos ((hb.wrs_last_iff hp).2 h)

end

/-- Settles O24: the byte is `STAGE[N]`, and whether it is the last is decided by N and the length of the encoding. -/
theorem wrsSendsNextByte : Obligations.WrsSendsNextByte := by
  intro s rest hs hp hsink
  refine ⟨s.blk.stageByte, hs.blk.encode_getElem?_n hp, fun hmore => ?_, fun hlast => ?_⟩
  · rw [exec_wrs_cons hsink, hs.blk.wrs_ok_more hp hmore]
  · rw [exec_wrs_cons hsink, hs.blk.wrs_ok_last hp hlast]
    rfl

/-! ## RD (R220 to R232) -/

theorem Block.rd_endOfInput (b : Block) :
    b.rd .endOfInput = b.finish (if b.n = 0 then .endOfInput else .unexpectedEndOfInput) b.n := by
  by_cases h : b.n = 0
  · simp only [Block.rd, h, if_true]
  · simp only [Block.rd, h, if_false]

theorem Block.Inv.rd_n_le_nine {b : Block} (hb : b.Inv) (hp : b.phase = .runRd) : b.n.toNat ≤ 9 := by
  obtain ⟨bs, hbs⟩ := hb.rd_consumed hp
  exact hbs.length_eq ▸ hbs.length_le

/-- Settles O25: the end of input is told by N, and a running RD has consumed at most nine bytes. -/
theorem rdTellsAbsenceFromTruncation : Obligations.RdTellsAbsenceFromTruncation := by
  intro s rest hsource
  refine ⟨?_, fun hs hp => hs.blk.rd_n_le_nine hp⟩
  rw [exec_rd_cons hsource, Block.rd_endOfInput]
  rfl

/-- Settles O26: on an `Error` answer the block's step of RD is `finishIo` with COUNT = N. -/
theorem rdPassesSourceErrorThrough : Obligations.RdPassesSourceErrorThrough := by
  intro s e rest hsource
  rw [exec_rd_cons hsource]
  rfl

/-- Settles O28: of the six cases of RD's step five end it, each with its COUNT, and N is at most 9. -/
theorem rdOutcomes : Obligations.RdOutcomes := by
  intro s t hs hp h hend
  have hn := hs.blk.rd_n_le_nine hp
  rw [hs.blk.coreMove_eq_exec (i := .rd) hp] at h
  obtain ⟨-, rfl⟩ | ⟨a, rest, -, rfl⟩ := exec_cases h
  · exact absurd hp hend
  rcases s.blk.rd_cases a with
    ⟨-, -, h⟩ | ⟨-, hne, h⟩ | ⟨e, -, h⟩ | ⟨x, -, -, h⟩ | ⟨x, v, k, -, hx, h⟩ | ⟨x, v, k, f, -, -, h⟩ <;>
    simp only [h] at hend ⊢
  · exact .inr (.inr (.inl ⟨rfl, rfl⟩))
  · have hpos : s.blk.n.toNat ≠ 0 := fun h0 => hne (BitVec.eq_of_toNat_eq h0)
    exact .inr (.inr (.inr (.inl ⟨rfl, Nat.one_le_iff_ne_zero.2 hpos, hn⟩)))
  · exact .inr (.inr (.inr (.inr ⟨rfl, hn⟩)))
  · exact .inr (.inl ⟨rfl, rfl⟩)
  · have hk : k.toNat = s.blk.n.toNat + 1 := by rw [absorb_done_count hx, byte_succ_toNat hn]
    exact .inl ⟨rfl, by rw [Block.finish_count]; omega, by rw [Block.finish_count]; omega⟩
  · exact absurd hp hend

end Sys2Proof.Machine
end

section
/-! Writing CMD (60_exceptions.md R266): FAULT, BUSY and acceptance as equations, and the Entry actions in full. -/

namespace Sys2Proof.Machine

theorem Block.issue_of_fault {b : Block} (w : Byte) (hfault : b.status.fault = true) : b.issue w = b := if_pos hfault

theorem Block.issue_of_busy {b : Block} (w : Byte) (hbusy : b.status.busy = true) : b.issue w = b := by
  simp only [Block.issue, hbusy, if_true, ite_self]

theorem Block.issue_of_legal {b : Block} {w : Byte} {i : Instr} (hfault : b.status.fault = false)
    (hbusy : b.status.busy = false) (hw : decode w = .ok i) : b.issue w = b.accept w i := by
  simp only [Block.issue, hfault, hbusy, hw, Bool.false_eq_true, if_false]

/-- Acceptance, register by register; the writers' STAGE and STAGE_LEN are those of `accept_staged`. -/
theorem Block.accept_eq (w : Byte) (i : Instr) (b : Block) :
    b.accept w i = { b with
      opl := oplOf w
      status := { busy := true, done := false, fault := b.status.fault, err := .ok }
      count := 0
      ioerr := { valid := false, code := 0 }
      phase := runPhase i
      acc := if i = .rd then 0 else b.acc
      n := if i = .rd ∨ i = .wrs then 0 else b.n
      first := if i = .rd then 0 else b.first
      stage := (b.accept w i).stage
      stageLen := (b.accept w i).stageLen } := by
  cases i with
  | enc | dec | wrb | wrs | rd => rfl

theorem Block.accept_stage_kept {b : Block} (w : Byte) {i : Instr} (hi : ¬(i = .wrb ∨ i = .wrs)) :
    (b.accept w i).stage = b.stage ∧ (b.accept w i).stageLen = b.stageLen := by
  cases i with
  | enc | dec | rd => exact ⟨rfl, rfl⟩
  | wrb | wrs => simp at hi

/-- The core's next move after acceptance runs the command. -/
theorem coreMove_accept {s : State} {b : Block} {i : Instr} (hblk : s.blk = b.accept (encode i) i) :
    coreMove s = exec i s := by
  apply coreMove_of_run
  · rw [hblk, Block.accept_phase, runPhase_isRun]
  · rw [hblk, Block.accept_opl, decode_oplWord_encode]

/-- Settles O36: the write changes the block by `issue`, whose branches are taken one by one. -/
theorem acceptanceOrder : Obligations.AcceptanceOrder := by
  intro s v
  refine ⟨_, rfl, rfl, fun hfault => Block.issue_of_fault _ hfault, fun hbusy => Block.issue_of_busy _ hbusy,
    fun hfault hbusy => ⟨fun e hw => ?_, fun i hw => ?_⟩⟩
  · show s.blk.issue (v.setWidth 8) = _
    simp only [Block.issue_of_illegal hfault hbusy hw, Block.illegal, Status.completed, IoErrReg.none, hfault]
  · have hissue : s.blk.regWrite 0 v = s.blk.accept (encode i) i := by
      rw [← decode_eq_ok_encode hw]
      exact Block.issue_of_legal hfault hbusy hw
    simp only [hissue]
    refine ⟨(Block.accept_eq (encode i) i s.blk).trans (by rw [hfault]), ?_, coreMove_accept (b := s.blk) rfl⟩
    split
    case isTrue hi => exact Block.accept_staged (hi.imp (congrArg runPhase) (congrArg runPhase))
    case isFalse hi => exact Block.accept_stage_kept _ hi

end Sys2Proof.Machine
end

section
/-! Whole runs of WRS (41_streaming.md R210 to R212): the state after a number of bytes, the run to it from acceptance, and the
step that ends the command. -/

namespace Sys2Proof.Machine

theorem replicate_succ_append_eq {α : Type} (k : Nat) (a : α) (l : List α) :
    List.replicate (k + 1) a ++ l = List.replicate k a ++ a :: l := by
  rw [List.replicate_succ', List.append_assoc, List.singleton_append]

theorem run_succ_last {k : Nat} {s t u : State} (hrun : Sys2Proof.core.run k s = .next t) (hstep : step t = .next u) :
    Sys2Proof.core.run (k + 1) s = .next u :=
  (run_add k 1 s t hrun).trans (run_one t u hstep)

/-- A WRS of `s` that has sent the first `j` bytes, all accepted, with `ms` and `rest` the moves and the sink's answers to come. -/
def State.afterSent (s : State) (j : Nat) (ms : List Move) (rest : List SinkResp) : State :=
  { s with
    blk := { s.blk with n := BitVec.ofNat 8 j }
    sink := rest
    sched := ms
    trace := s.trace ++ ((sdnvEncode s.blk.value.toNat).take j).map fun b => .sinkByte b .ok }

theorem State.afterSent_zero {s : State} {ms : List Move} {rest : List SinkResp} (hn : s.blk.n = 0) (hsched : s.sched = ms)
    (hsink : s.sink = rest) : s.afterSent 0 ms rest = s := by
  subst hsched hsink
  have hblk : { s.blk with n := BitVec.ofNat 8 0 } = s.blk := by
    show { s.blk with n := 0 } = s.blk
    rw [← hn]
  simp only [State.afterSent, hblk, List.take_zero, List.map_nil, List.append_nil]

/-- The transactions of `j` accepted bytes and one more byte. -/
theorem State.afterSent_trace_concat {s : State} {j : Nat} {b : Byte} (hb : (sdnvEncode s.blk.value.toNat)[j]? = some b)
    (ms : List Move) (rest : List SinkResp) : (s.afterSent j ms rest).trace ++ [.sinkByte b .ok] =
      s.trace ++ ((sdnvEncode s.blk.value.toNat).take (j + 1)).map fun b => .sinkByte b .ok := by
  simp only [State.afterSent, List.take_add_one, hb, Option.toList_some, List.map_append, List.map_singleton,
    List.append_assoc]

section
variable {s : State} {j : Nat} (hs : s.Inv) (hp : s.blk.phase = .runWrs) (hj : j < sdnvLen s.blk.value.toNat)

include hj in
theorem State.afterSent_n (ms : List Move) (rest : List SinkResp) : (s.afterSent j ms rest).blk.n.toNat = j :=
  ofNat8_toNat_of_le_ten (hj.le.trans (sdnvLen_word_le_ten _))

include hs hp hj

theorem State.Inv.afterSent (ms : List Move) (rest : List SinkResp) : (s.afterSent j ms rest).Inv where
  blk := { hs.blk with
    wrs_left := fun _ => by
      rw [State.afterSent_n hj]
      exact hj.trans_eq (hs.blk.staged_eq (.inr hp)).2.symm
    rd_consumed := fun h => by simp [State.afterSent, hp] at h }
  vars_wf := hs.vars_wf

theorem step_afterSent (ms : List Move) (rest : List SinkResp) :
    step (s.afterSent j (.core :: ms) rest) = exec .wrs (s.afterSent j ms rest) :=
  step_core_run (s := s.afterSent j (.core :: ms) rest) (hs.afterSent hp hj _ _).blk hp rfl

end

section
variable {s : State} (hs : s.Inv) (hp : s.blk.phase = .runWrs)
include hs hp

theorem step_afterSent_more {j : Nat} (hj : j + 1 < sdnvLen s.blk.value.toNat) (ms : List Move) (rest : List SinkResp) :
    step (s.afterSent j (.core :: ms) (.ok :: rest)) = .next (s.afterSent (j + 1) ms rest) := by
  have hlt := Nat.lt_of_succ_lt hj
  have hn := State.afterSent_n hlt ms (.ok :: rest)
  obtain ⟨b, hb, hmore, -⟩ := wrsSendsNextByte _ rest (hs.afterSent hp hlt ms (.ok :: rest)) hp rfl
  rw [hn] at hb hmore
  rw [step_afterSent hs hp hlt, hmore hj, State.afterSent_trace_concat (s := s) hb]
  simp only [State.afterSent, ofNat8_succ]

/-- The first `j` bytes, short of the last, leave WRS running. -/
theorem run_wrs_ok {j : Nat} (hn : s.blk.n = 0) (hj : j < sdnvLen s.blk.value.toNat) {ms : List Move} {rest : List SinkResp}
    (hsched : s.sched = List.replicate j .core ++ ms) (hsink : s.sink = List.replicate j .ok ++ rest) :
    Sys2Proof.core.run j s = .next (s.afterSent j ms rest) := by
  induction j generalizing ms rest with
  | zero => exact congrArg Host.Outcome.next (State.afterSent_zero hn hsched hsink).symm
  | succ j ih =>
    rw [replicate_succ_append_eq] at hsched hsink
    exact run_succ_last (ih (Nat.lt_of_succ_lt hj) hsched hsink) (step_afterSent_more hs hp hj ms rest)

end

/-- Settles O30: all bytes but the last leave WRS running, and the last ends it. -/
theorem wrsSendsEncodingInOrder : Obligations.WrsSendsEncodingInOrder := by
  intro s ms rest hs hp hn hsched hsink
  obtain ⟨j, hj⟩ := Nat.exists_eq_add_one.2 (sdnvLen_pos s.blk.value.toNat)
  have hlt : j < sdnvLen s.blk.value.toNat := by omega
  obtain ⟨b, hb, -, hlast⟩ := wrsSendsNextByte _ rest (hs.afterSent hp hlt ms (.ok :: rest)) hp rfl
  rw [State.afterSent_n hlt] at hb hlast
  have hwhole : (sdnvEncode s.blk.value.toNat).take (j + 1) = sdnvEncode s.blk.value.toNat :=
    List.take_of_length_le (by rw [sdnvEncode_length, hj])
  have hstep := (step_afterSent hs hp hlt ms (.ok :: rest)).trans (hlast hj.symm)
  rw [hj, replicate_succ_append_eq] at hsched hsink
  rw [State.afterSent_trace_concat (s := s) hb, hwhole] at hstep
  rw [hj, run_succ_last (run_wrs_ok hs hp hn hlt hsched hsink) hstep]
  simp only [State.afterSent, ofNat8_succ, hj, hs.blk.not_fault_of_run (by rw [hp]; rfl)]

/-- Settles O31: `j` accepted bytes leave WRS running, and the refused one ends it. -/
theorem wrsPartialWrite : Obligations.WrsPartialWrite := by
  intro s j e ms rest hs hp hn hj hsched hsink
  have hinv := hs.afterSent hp hj ms (.error e :: rest)
  have hb := hinv.blk.encode_getElem?_n hp
  rw [State.afterSent_n hj] at hb
  refine ⟨_, hb, ?_⟩
  have hstep := (step_afterSent hs hp hj ms (.error e :: rest)).trans (wrsStopsAtError _ e rest rfl)
  rw [replicate_succ_append_eq] at hsched
  rw [run_succ_last (run_wrs_ok hs hp hn hj hsched hsink) hstep]
  simp only [State.afterSent, hs.blk.not_fault_of_run (by rw [hp]; rfl)]

end Sys2Proof.Machine
end

section
/-! Whole runs of RD (41_streaming.md R220 to R232): the state after some flagged bytes, the run to it from acceptance, and the step
that ends the command; and the bound of ten steps. -/

namespace Sys2Proof.Machine

/-- An RD of `s` that has consumed the bytes `p`, with `ms` and `rest` the moves and the source's answers to come. -/
def State.afterRead (s : State) (p : List Byte) (ms : List Move) (rest : List SrcResp) : State :=
  { s with
    blk := { s.blk with
      acc := BitVec.ofNat 64 (sdnvValue p)
      n := BitVec.ofNat 8 p.length
      first := firstAfter s.blk.first p }
    source := rest
    sched := ms
    trace := s.trace ++ p.map fun b => .srcRead (.byte b) }

theorem State.afterRead_consumed (s : State) {p : List Byte} (hp : ∀ x ∈ p, continues x = true) (hlen : p.length ≤ 9)
    (ms : List Move) (rest : List SrcResp) : (s.afterRead p ms rest).blk.Consumed p where
  length_eq := (ofNat8_toNat_of_le_ten (hlen.trans (by decide))).symm
  length_le := hlen
  flagged := hp
  acc_eq := (BitVec.toNat_ofNat _ _).trans (Nat.mod_eq_of_lt (sdnvValue_lt_of_length p hlen))
  first_eq := fun x hx => by simp only [State.afterRead, firstAfter, hx, Option.getD_some]

theorem firstAfter_concat_any (f : Byte) (p : List Byte) (x : Byte) : firstAfter f (p ++ [x]) = firstAfter 0 (p ++ [x]) := by
  cases p <;> rfl

section
variable {s : State} (hs : s.Inv) (hrd : s.blk.phase = .runRd)
include hs hrd

/-- A running RD with N = 0 has consumed nothing. -/
theorem State.afterRead_nil {ms : List Move} {rest : List SrcResp} (hn : s.blk.n = 0) (hsched : s.sched = ms)
    (hsource : s.source = rest) : s.afterRead [] ms rest = s := by
  subst hsched hsource
  obtain ⟨bs, hbs⟩ := hs.blk.rd_consumed hrd
  obtain rfl : bs = [] := List.length_eq_zero_iff.1 (by rw [hbs.length_eq, hn]; rfl)
  obtain ⟨hacc, hzero, -⟩ := hbs.registers
  have hblk : { s.blk with
      acc := BitVec.ofNat 64 (sdnvValue [])
      n := BitVec.ofNat 8 ([] : List Byte).length
      first := firstAfter s.blk.first [] } = s.blk := by
    rw [← hacc, ← hzero]; rfl
  simp only [State.afterRead, hblk, List.map_nil, List.append_nil]

section
variable {p : List Byte} (hp : ∀ x ∈ p, continues x = true) (hlen : p.length ≤ 9)
include hp hlen

theorem State.Inv.afterRead (ms : List Move) (rest : List SrcResp) : (s.afterRead p ms rest).Inv where
  blk := { hs.blk with
    wrs_left := fun h => by simp [State.afterRead, hrd] at h
    rd_consumed := fun _ => ⟨p, s.afterRead_consumed hp hlen ms rest⟩ }
  vars_wf := hs.vars_wf

theorem step_afterRead (a : SrcResp) (ms : List Move) (rest : List SrcResp) :
    step (s.afterRead p (.core :: ms) (a :: rest)) = .next { s.afterRead p ms rest with
      blk := (s.afterRead p ms rest).blk.rd a
      trace := (s.afterRead p ms rest).trace ++ [.srcRead a] } :=
  (step_core_run (i := .rd) (s := s.afterRead p (.core :: ms) (a :: rest)) (hs.afterRead hrd hp hlen _ _).blk hrd rfl).trans
    (exec_rd_cons rfl)

end

theorem step_afterRead_more {p : List Byte} {x : Byte} (hp : ∀ y ∈ p, continues y = true) (hx : continues x = true)
    (hlen : p.length ≤ 8) (ms : List Move) (rest : List SrcResp) :
    step (s.afterRead p (.core :: ms) (.byte x :: rest)) = .next (s.afterRead (p ++ [x]) ms rest) := by
  have habsorb := (s.afterRead_consumed hp (by omega) ms rest).absorb_eq x
  rw [if_neg fun h => by omega, if_pos hx] at habsorb
  rw [step_afterRead hs hrd hp (by omega), Block.rd_byte_more habsorb]
  simp only [State.afterRead, List.length_append, List.length_singleton, firstAfter_concat_any, List.map_append,
    List.map_singleton, List.append_assoc]

/-- Flagged bytes, at most nine, leave RD running. -/
theorem run_rd_flagged {p : List Byte} (hn : s.blk.n = 0) (hp : ∀ x ∈ p, continues x = true) (hlen : p.length ≤ 9)
    {ms : List Move} {rest : List SrcResp} (hsched : s.sched = List.replicate p.length .core ++ ms)
    (hsource : s.source = p.map .byte ++ rest) : Sys2Proof.core.run p.length s = .next (s.afterRead p ms rest) := by
  induction p using List.reverseRecOn generalizing ms rest with
  | nil => exact congrArg Host.Outcome.next (State.afterRead_nil hs hrd hn hsched hsource).symm
  | append_singleton p x ih =>
    rw [List.forall_mem_append, List.forall_mem_singleton] at hp
    obtain ⟨hflagged, hx⟩ := hp
    rw [List.length_append, List.length_singleton] at hlen hsched ⊢
    rw [replicate_succ_append_eq] at hsched
    rw [List.map_append, List.map_singleton, List.append_assoc, List.singleton_append] at hsource
    exact run_succ_last (ih hflagged (by omega) hsched hsource)
      (step_afterRead_more hs hrd hflagged hx (by omega) ms rest)

/-- The flagged bytes `p`, at most nine, and one byte more: RD's step for it is taken after `p`. -/
theorem run_rd_concat {p : List Byte} {x : Byte} (hn : s.blk.n = 0) (hp : ∀ y ∈ p, continues y = true)
    (hlen : p.length ≤ 9) {ms : List Move} {rest : List SrcResp}
    (hsched : s.sched = List.replicate (p.length + 1) .core ++ ms) (hsource : s.source = (p ++ [x]).map .byte ++ rest) :
    Sys2Proof.core.run (p.length + 1) s = .next { s.afterRead p ms rest with
      blk := (s.afterRead p ms rest).blk.rd (.byte x)
      trace := s.trace ++ (p ++ [x]).map fun b => .srcRead (.byte b) } := by
  rw [replicate_succ_append_eq] at hsched
  rw [List.map_append, List.map_singleton, List.append_assoc, List.singleton_append] at hsource
  rw [run_succ_last (run_rd_flagged hs hrd hn hp hlen hsched hsource) (step_afterRead hs hrd hp hlen (.byte x) ms rest)]
  simp only [State.afterRead, List.map_append, List.map_singleton, List.append_assoc]

end

/-- Settles O32: the flagged bytes leave RD running, and the unflagged one ends it with the value of all of them. -/
theorem rdReadsOneRecord : Obligations.RdReadsOneRecord := by
  intro s bs ms rest hs hrd hn haccepted hsource hsched
  refine ⟨BitVec.ofNat 64 (sdnvValue bs.dropLast), BitVec.ofNat 8 bs.dropLast.length,
    firstAfter s.blk.first bs.dropLast, ?_, sdnvValue_lt_of_accepted haccepted⟩
  obtain ⟨p, b, rfl, hp, hb, hw⟩ := (accepted_iff bs).1 haccepted
  have hlen : p.length ≤ 9 := by omega
  have hfits : ¬(p.length = 9 ∧ (continues b = true ∨ firstAfter 0 (p ++ [b]) ≠ 0x81)) := by
    rintro ⟨hnine, hflag | hfirst⟩
    · rw [hb] at hflag; cases hflag
    · exact hfirst (hw.resolve_left (by omega)).2
  have habsorb := (s.afterRead_consumed hp hlen ms rest).absorb_eq b
  rw [if_neg hfits, if_neg (by simp [hb])] at habsorb
  rw [List.length_append, List.length_singleton] at hsched ⊢
  rw [run_rd_concat hs hrd hn hp hlen hsched hsource, Block.rd_byte_done habsorb, List.dropLast_concat]
  simp only [State.afterRead, Block.finish, Status.completed, hs.blk.not_fault_of_run (by rw [hrd]; rfl)]

/-- Settles O33: nine flagged bytes leave RD running, and the 10th ends it with OVERFLOW64. -/
theorem rdOverflowConsumesTen : Obligations.RdOverflowConsumesTen := by
  intro s bs ms rest hs hrd hn hover hsource hsched
  obtain ⟨p, b, rfl, hlen, hp, hcause⟩ := (overflows_iff bs).1 hover
  refine ⟨BitVec.ofNat 64 (sdnvValue p), BitVec.ofNat 8 p.length, firstAfter s.blk.first p, ?_⟩
  have habsorb := (s.afterRead_consumed hp hlen.le ms rest).absorb_eq b
  rw [if_pos ⟨hlen, hcause⟩] at habsorb
  have hten : 10 = p.length + 1 := by rw [hlen]
  rw [hten] at hsched ⊢
  rw [run_rd_concat hs hrd hn hp hlen.le hsched hsource, Block.rd_byte_overflow habsorb]
  simp only [State.afterRead, Block.finish, Status.completed, hs.blk.not_fault_of_run (by rw [hrd]; rfl)]

/-! ## The bound of ten steps (R231) -/

/-- One answer ends RD, or it goes on with N one higher. -/
theorem Block.rd_ends_or_goes_on (a : SrcResp) (b : Block) :
    ((b.rd a).phase = .idle ∧ (b.rd a).status.done = true) ∨ ((b.rd a).phase = b.phase ∧ (b.rd a).n = b.n + 1) := by
  rcases b.rd_cases a with
    ⟨-, -, h⟩ | ⟨-, -, h⟩ | ⟨e, -, h⟩ | ⟨x, -, -, h⟩ | ⟨x, v, k, -, -, h⟩ | ⟨x, v, k, f, -, hx, h⟩ <;> rw [h]
  · exact .inl ⟨rfl, rfl⟩
  · exact .inl ⟨rfl, rfl⟩
  · exact .inl ⟨rfl, rfl⟩
  · exact .inl ⟨rfl, rfl⟩
  · exact .inl ⟨rfl, rfl⟩
  · exact .inr ⟨rfl, (absorb_more_count hx).2⟩

/-- With `m` answers and `m` core moves to come, N + m at least ten, a running RD ends within `m` steps. -/
theorem run_rd_ends {s : State} {m : Nat} {ms : List Move} (hs : s.blk.Inv) (hrd : s.blk.phase = .runRd)
    (hm : 10 ≤ s.blk.n.toNat + m) (hsource : m ≤ s.source.length) (hsched : s.sched = List.replicate m .core ++ ms) :
    ∃ k t, 1 ≤ k ∧ k ≤ m ∧ Sys2Proof.core.run k s = .next t ∧ t.blk.phase = .idle ∧ t.blk.status.done = true ∧
      t.source = s.source.drop k := by
  induction m generalizing s with
  | zero =>
    have hn := hs.rd_n_le_nine hrd
    omega
  | succ m ih =>
    obtain ⟨a, rest, hcons⟩ := List.exists_cons_of_length_pos (Nat.zero_lt_of_lt hsource)
    have hstep := (step_core_run (i := .rd) hs hrd hsched).trans (exec_rd_cons hcons)
    rcases s.blk.rd_ends_or_goes_on a with ⟨hidle, hdone⟩ | ⟨hphase, hnext⟩
    · exact ⟨1, _, le_rfl, by omega, run_one _ _ hstep, hidle, hdone, by rw [hcons]; rfl⟩
    · have hinv := step_blk_inv hs hstep
      have hsucc := byte_succ_toNat (hs.rd_n_le_nine hrd)
      rw [hcons, List.length_cons] at hsource
      obtain ⟨k, t, -, hk, hrun, hidle, hdone, hdrop⟩ := ih hinv (hphase.trans hrd) (by simp only [hnext]; omega)
        (Nat.le_of_succ_le_succ hsource) rfl
      exact ⟨k + 1, t, by omega, by omega, (run_succ k _ _ hstep).trans hrun, hidle, hdone, by rw [hdrop, hcons]; rfl⟩

/-- Settles O34: ten answers and ten core moves are enough from any N. -/
theorem rdEndsWithinTenSteps : Obligations.RdEndsWithinTenSteps := fun _ _ hs hrd hsource hsched =>
  run_rd_ends hs.blk hrd (Nat.le_add_left _ _) hsource hsched

end Sys2Proof.Machine
end

section
/-! After a completion (60_exceptions.md R267 to R269): what an illegal word records at once, what keeps STATUS, COUNT and IOERR until
the next command, and FAULTED, which only reset leaves. -/

namespace Sys2Proof.Machine

/-! ## An illegal word (R267) -/

/-- Settles O37: the host's write of CMD is `issue`, which takes its illegal branch. -/
theorem illegalCommandCompletes : Obligations.IllegalCommandCompletes := by
  intro s v e hfault hbusy hw
  have hissue : s.blk.regWrite 0 v = s.blk.illegal := Block.issue_of_illegal hfault hbusy hw
  rw [hostOp, hissue]
  rfl

/-! ## What keeps a completion (R268) -/

/-- `c` shows the completion that `b` shows, in the same phase. -/
structure SameCompletion (b c : Block) : Prop where
  status : c.status = b.status
  count : c.count = b.count
  ioerr : c.ioerr = b.ioerr
  phase : c.phase = b.phase

theorem SameCompletion.of_eq {b c : Block} (h : c = b) : SameCompletion b c := h ▸ ⟨rfl, rfl, rfl, rfl⟩

/-- Of the host's register writes only a CMD write can touch a completion. -/
theorem sameCompletion_regWrite {b : Block} {r : BitVec 4} (hr : r ≠ 0) (v : Word) : SameCompletion b (b.regWrite r v) := by
  rcases b.regWrite_cases r v with ⟨h0, -⟩ | ⟨-, -, h⟩ | ⟨-, -, h⟩ | ⟨-, h⟩
  · exact absurd h0 hr
  · rw [h]; exact ⟨rfl, rfl, rfl, rfl⟩
  · rw [h]; exact ⟨rfl, rfl, rfl, rfl⟩
  · exact .of_eq h

theorem sameCompletion_bufWrite (b : Block) (i : Byte) (v : Word) : SameCompletion b (b.bufWrite i v) := by
  rcases b.bufWrite_cases i v with ⟨-, -, h⟩ | h
  · rw [h]; exact ⟨rfl, rfl, rfl, rfl⟩
  · exact .of_eq h

/-- With no command running, a step keeps the completion, or it is a CMD write or reset. -/
theorem step_sameCompletion {s t : State} (hrun : s.blk.phase.isRun = false) (h : step s = .next t) :
    SameCompletion s.blk t.blk ∨
    (∃ v, t.blk = s.blk.regWrite 0 v ∧ t.trace = s.trace ++ [.regWrite 0 v]) ∨
    s.takeMove.1 = .reset := by
  rcases step_blk_cases h with ⟨hb, -⟩ | ⟨-, hrun', -⟩ | ⟨-, r, v, hb, htrace⟩ | ⟨-, i, v, hb, -⟩ | ⟨hm, -⟩
  · exact .inl (.of_eq hb)
  · rw [hrun] at hrun'; cases hrun'
  · by_cases hr : r = 0
    · subst hr; exact .inr (.inl ⟨v, hb, htrace⟩)
    · rw [hb]; exact .inl (sameCompletion_regWrite hr v)
  · rw [hb]; exact .inl (sameCompletion_bufWrite s.blk i v)
  · exact .inr (.inr hm)

/-- DONE 1 means that no command runs (10_state.md R35, R36). -/
theorem Block.Inv.not_run_of_done {b : Block} (hb : b.Inv) (hdone : b.status.done = true) : b.phase.isRun = false := by
  simpa [hdone, hb.busy_eq] using hb.not_busy_and_done

/-- Settles O58: with DONE 1 no command runs, and the two other ways of `step_sameCompletion` are excluded. -/
theorem completionIsKept : Obligations.CompletionIsKept := by
  intro s t hs hdone h hreset hcmd
  obtain hsame | ⟨v, -, htrace⟩ | hm := step_sameCompletion (hs.blk.not_run_of_done hdone) h
  · exact ⟨hsame.status, hsame.count, hsame.ioerr, hsame.phase⟩
  · exact absurd htrace (hcmd v)
  · exact absurd hm hreset

/-! ## FAULTED (R269) -/

/-- Only a running command moves a stream; neither the host nor reset does (20_memory.md R74 to R76). -/
theorem step_streams_of_not_run {s t : State} (hrun : s.blk.phase.isRun = false) (h : step s = .next t) :
    t.source = s.source ∧ t.sink = s.sink ∧ t.bulk = s.bulk := by
  rcases step_cases h with ⟨-, h⟩ | ⟨-, h⟩ | ⟨-, rfl⟩
  · rw [coreMove_of_not_run (s := { s with sched := s.sched.tail }) hrun] at h
    cases h
    exact ⟨rfl, rfl, rfl⟩
  · rcases hostMove_cases h with rfl | ⟨line, -, h⟩
    · exact ⟨rfl, rfl, rfl⟩
    · rcases hostOp_cases h with ⟨r, v, -, rfl⟩ | ⟨i, v, -, rfl⟩ | ⟨r, x, -, rfl⟩ | ⟨i, x, -, rfl⟩ | ⟨pc, -, rfl⟩ <;>
        exact ⟨rfl, rfl, rfl⟩
  · exact ⟨rfl, rfl, rfl⟩

theorem Block.bufWrite_in_range {b : Block} {i : Byte} (v : Word) (hi : i < b.cfg.bufMax) (hb : b.status.busy = false) :
    b.bufWrite i v = { b with buf := assocSet b.buf i.toNat (v.setWidth 8) } := if_pos ⟨hi, hb⟩

theorem step_reset_blk {s t : State} (hm : s.takeMove.1 = .reset) (h : step s = .next t) : t.blk = .reset s.blk.cfg := by
  rw [step_eq, hm] at h
  cases h
  rfl

/-- With FAULT 1 no CMD write is looked at, so every step but reset keeps the completion. -/
theorem step_sameCompletion_of_fault {s t : State} (hrun : s.blk.phase.isRun = false) (hfault : s.blk.status.fault = true)
    (h : step s = .next t) (hreset : s.takeMove.1 ≠ .reset) : SameCompletion s.blk t.blk := by
  obtain hsame | ⟨v, hb, -⟩ | hm := step_sameCompletion hrun h
  · exact hsame
  · exact .of_eq (hb.trans (Block.issue_of_fault _ hfault))
  · exact absurd hm hreset

/-- Settles O54: in FAULTED, FAULT is 1 and BUSY is 0; FAULT 1 keeps the completion, and BUSY 0 lets the operand writes land. -/
theorem faultedUntilReset : Obligations.FaultedUntilReset := by
  intro s t hs hp h
  have hrun : s.blk.phase.isRun = false := by rw [hp]; rfl
  have hbusy : s.blk.status.busy = false := hs.blk.busy_eq.trans hrun
  have hfault : s.blk.status.fault = true := hs.blk.fault_iff.2 hp
  refine ⟨hfault, fun hreset => ?_, fun hm => ?_, fun v => Block.issue_of_fault _ hfault,
    fun r x => ⟨_, rfl, assocGet_assocSet_same _ _ _⟩, fun v => ?_, fun v => ?_, fun i v hi => ?_⟩
  · have hsame := step_sameCompletion_of_fault hrun hfault h hreset
    exact ⟨hsame.phase.trans hp, hsame.status, hsame.count, hsame.ioerr, step_streams_of_not_run hrun h⟩
  · rw [step_reset_blk hm h]
    exact ⟨rfl, rfl⟩
  · rw [Block.regWrite_value v hbusy]
  · rw [Block.regWrite_bufLen v hbusy, Params.clampLen_setWidth]
  · rw [Block.bufWrite_in_range v hi hbusy]
    exact assocGet_assocSet_same _ _ _

end Sys2Proof.Machine
end

section
/-! While BUSY the host's writes have no effect (70_reset_and_hazards.md R312), and reset gives every register its reset value whatever
the block was doing (R300 to R303). -/

namespace Sys2Proof.Machine

/-! ## The host's writes while BUSY (R312) -/

/-- A CMD write is not looked at, and no write of VALUE or BUF_LEN lands. -/
theorem Block.regWrite_of_busy {b : Block} (r : BitVec 4) (v : Word) (hbusy : b.status.busy = true) : b.regWrite r v = b := by
  rcases b.regWrite_cases r v with ⟨-, h⟩ | ⟨-, hidle, -⟩ | ⟨-, hidle, -⟩ | ⟨-, h⟩
  · exact h.trans (Block.issue_of_busy _ hbusy)
  · simp [hbusy] at hidle
  · simp [hbusy] at hidle
  · exact h

theorem Block.bufWrite_of_busy {b : Block} (i : Byte) (v : Word) (hbusy : b.status.busy = true) : b.bufWrite i v = b :=
  if_neg (by simp [hbusy])

/-- Settles O38: neither write of the host changes a BUSY block, and a read assigns its variable, BUSY or not. -/
theorem writesWhileBusyIgnored : Obligations.WritesWhileBusyIgnored := by
  refine fun s hbusy => ⟨fun r v => ?_, fun i v => ?_, fun r x => ⟨_, rfl, rfl, assocGet_assocSet_same _ _ _⟩,
    fun i x => ⟨_, rfl, rfl, assocGet_assocSet_same _ _ _⟩⟩
  · rw [hostOp, Block.regWrite_of_busy r v hbusy]; rfl
  · rw [hostOp, Block.bufWrite_of_busy i v hbusy]; rfl

/-! ## Reset (R300 to R303) -/

theorem step_reset {s : State} {ms : List Move} (hsched : s.sched = .reset :: ms) :
    step s = .next { s with sched := ms, blk := .reset s.blk.cfg, trace := s.trace ++ [.reset] } := by
  rw [step, State.takeMove_cons s _ _ hsched]; rfl

theorem Block.regRead_status_reset (p : Params) : (Block.reset p).regRead 1 = 0 := by
  show Status.reset.word.setWidth 64 = (0 : Word)
  decide

theorem Block.regRead_ioerr_reset (p : Params) : (Block.reset p).regRead 5 = 0 := by
  show IoErrReg.none.word.setWidth 64 = (0 : Word)
  decide

/-- Settles O44: the step is the reset move, and each claim is a field of the block after reset or one that reset leaves. -/
theorem resetEffect : Obligations.ResetEffect := by
  intro s ms hsched
  exact ⟨_, step_reset hsched, rfl, rfl, rfl, rfl, rfl, Block.regRead_status_reset _, Block.regRead_ioerr_reset _, rfl, rfl,
    fun _ => rfl, fun _ _ => rfl, rfl, rfl, rfl, rfl, rfl⟩

end Sys2Proof.Machine
end
